-- ==== Sys2Proof/Word.lean ====
section
/-! DEFINITION. The word types: a pulse element, a byte, and the two numbers a decoder hands out. -/

namespace Sys2Proof

/-- One element of a pulse sequence: an unsigned 16-bit duration in microseconds, indivisible (R41, R50). -/
abbrev Pulse := BitVec 16

/-- An 8-bit field of a frame or of the response record (R22, R66). -/
abbrev Byte := BitVec 8

end Sys2Proof
end

