-- ==== Sys2Proof/Syntax.lean ====
section
/-! DEFINITION. The instruction type: one constructor per row of spec/opcode_table.json. -/

namespace Sys2Proof

/-- The rows of spec/opcode_table.json.

The nine operations carry no operands: an operation word is the 4-bit `REQ.op` and nothing else, and the operands are fields
of the request record (R60, R61). The five frame formats carry the fields of their frame word, named by the letters of the
table's pattern (R63 to R66, R75). The four symbols carry nothing (R68). -/
inductive Instr where
  /-- `bits_to_value` (R90). -/
  | b2v
  /-- `value_to_pulses_sirc` (R91). -/
  | v2pSirc
  /-- `value_to_pulses_nec` (R92). -/
  | v2pNec
  /-- `classify_pulse_pair` (R93). -/
  | classify
  /-- `encode_sirc` (R100). -/
  | encSirc
  /-- `decode_sirc` (R110). -/
  | decSirc
  /-- `encode_nec` (R120). -/
  | encNec
  /-- `decode_nec` (R130). -/
  | decNec
  /-- The constant `NEC_REPEAT` (R122). -/
  | necRepeat
  /-- Format SIRC-12: command `c`, device `d` (R63). -/
  | sirc12 (c : BitVec 7) (d : BitVec 5)
  /-- Format SIRC-15: command `c`, device `d` (R64). -/
  | sirc15 (c : BitVec 7) (d : BitVec 8)
  /-- Format SIRC-20: command `c`, device `d`, extended device `e` (R65). -/
  | sirc20 (c : BitVec 7) (d : BitVec 5) (e : BitVec 8)
  /-- The non-standard 23-bit frame: the top three bits of `d` are 0 (R75). -/
  | sirc23 (c : BitVec 7) (d : BitVec 8) (e : BitVec 8)
  /-- Format NEC-32: `l` low address byte, `h` high address byte, `c` command, `i` inverted command (R66). -/
  | nec32 (l h c i : Byte)
  /-- The SIRC symbol of a 0 bit (R68). -/
  | sircBit0
  /-- The SIRC symbol of a 1 bit (R68). -/
  | sircBit1
  /-- The NEC symbol of a 0 bit (R68). -/
  | necBit0
  /-- The NEC symbol of a 1 bit (R68). -/
  | necBit1
  deriving DecidableEq, Repr

end Sys2Proof
end

