-- ==== Sys2Proof/WellFormed.lean ====
section
/-! DEFINITION. Which instructions are well formed: the two constraints the table puts on a frame word's fields. -/

namespace Sys2Proof

/-- Well-formedness. A 23-bit frame has the top three bits of its device field 0 (R75, table note "top three bits 0");
a NEC frame's inverted-command byte is the complement of its command byte (R66). Every other row is well formed as it
stands. -/
def Instr.wf : Instr → Bool
  | .b2v => true
  | .v2pSirc => true
  | .v2pNec => true
  | .classify => true
  | .encSirc => true
  | .decSirc => true
  | .encNec => true
  | .decNec => true
  | .necRepeat => true
  | .sirc12 _ _ => true
  | .sirc15 _ _ => true
  | .sirc20 _ _ _ => true
  | .sirc23 _ d _ => decide (d.toNat < 32)
  | .nec32 _ _ c i => decide (i = ~~~c)
  | .sircBit0 => true
  | .sircBit1 => true
  | .necBit0 => true
  | .necBit1 => true

end Sys2Proof
end

