-- ==== Sys2Proof/Decode.lean ====
section
/-! DEFINITION. The encodings of 30_encoding.md: the 4-bit operation select (R60), the frame words (R62 to R66, R75) and
the symbol code (R68); the decoder, total and rejecting by name; the frame-word builders; the encoder; and the opcode
table's own numbering. -/

namespace Sys2Proof

/-- A code: something one of the block's encodings can hold. The kind of place it stands in is part of it, because a 4-bit
operation select, a frame word and a symbol are told apart by where they stand and by their length, not by their bits
(30_encoding.md, opening; R70). -/
inductive Code where
  /-- The value of `REQ.op` (R60). -/
  | request (op : BitVec 4)
  /-- A SIRC frame word `w` of `nb` data bits (R62). -/
  | sircFrame (nb w : Nat)
  /-- A NEC frame word `w` of `nb` data bits (R62). -/
  | necFrame (nb w : Nat)
  /-- A SIRC symbol, named by the bit it carries (R68). -/
  | sircSymbol (bit : Bool)
  /-- A NEC symbol, named by the bit it carries (R68). -/
  | necSymbol (bit : Bool)
  deriving DecidableEq, Repr

/-- Why a code stands for no instruction. -/
inductive Reject where
  /-- `REQ.op` 9 to 15 selects no operation (R74). -/
  | reservedOp (op : BitVec 4)
  /-- No format of the protocol has this many data bits (R70). -/
  | noSuchLength (nb : Nat)
  /-- The frame word does not fit its length (R62). -/
  | wordTooWide (nb w : Nat)
  /-- The 8-bit device field of a 23-bit frame is over 31 (R75). -/
  | deviceOverFiveBits (device : Byte)
  /-- The inverted-command byte is not the complement of the command byte (R66, R71). -/
  | notComplement (command inverted : Byte)
  deriving DecidableEq, Repr

/-- The field of `width` bits of the natural `w` whose lowest bit is bit `lo`: `w[lo+width-1:lo]` (R11). -/
def field (w lo width : Nat) : BitVec width :=
  BitVec.ofNat width (w >>> lo)

/-- The operation a 4-bit select names (R60, R74). -/
def decodeOp (op : BitVec 4) : Except Reject Instr :=
  match op.toNat with
  | 0 => .ok .b2v
  | 1 => .ok .v2pSirc
  | 2 => .ok .v2pNec
  | 3 => .ok .classify
  | 4 => .ok .encSirc
  | 5 => .ok .decSirc
  | 6 => .ok .encNec
  | 7 => .ok .decNec
  | 8 => .ok .necRepeat
  | _ => .error (.reservedOp op)

/-- The instruction of a 23-bit SIRC frame word (R75). -/
def decodeSirc23 (w : Nat) : Except Reject Instr :=
  if (field w 7 8).toNat < 32 then .ok (.sirc23 (field w 0 7) (field w 7 8) (field w 15 8))
  else .error (.deviceOverFiveBits (field w 7 8))

/-- The format a SIRC frame word has, by its length alone (R63, R64, R65, R70, R75). -/
def decodeSircFrame (nb w : Nat) : Except Reject Instr :=
  if nb = 12 ∨ nb = 15 ∨ nb = 20 ∨ nb = 23 then
    if w < 2 ^ nb then
      if nb = 12 then .ok (.sirc12 (field w 0 7) (field w 7 5))
      else if nb = 15 then .ok (.sirc15 (field w 0 7) (field w 7 8))
      else if nb = 20 then .ok (.sirc20 (field w 0 7) (field w 7 5) (field w 12 8))
      else decodeSirc23 w
    else .error (.wordTooWide nb w)
  else .error (.noSuchLength nb)

/-- The instruction of a NEC frame word (R66). -/
def decodeNecFrame (nb w : Nat) : Except Reject Instr :=
  if nb = 32 then
    if w < 2 ^ 32 then
      if field w 24 8 = ~~~(field w 16 8) then
        .ok (.nec32 (field w 0 8) (field w 8 8) (field w 16 8) (field w 24 8))
      else .error (.notComplement (field w 16 8) (field w 24 8))
    else .error (.wordTooWide nb w)
  else .error (.noSuchLength nb)

/-- The decoder of every code, total, rejecting by name. -/
def decode : Code → Except Reject Instr
  | .request op => decodeOp op
  | .sircFrame nb w => decodeSircFrame nb w
  | .necFrame nb w => decodeNecFrame nb w
  | .sircSymbol b => .ok (if b then .sircBit1 else .sircBit0)
  | .necSymbol b => .ok (if b then .necBit1 else .necBit0)

/-- The SIRC-12 frame word `command[6:0] | (device << 7)` (R63). -/
def sirc12Word (c : BitVec 7) (d : BitVec 5) : Nat :=
  c.toNat ||| (d.toNat <<< 7)

/-- The SIRC-15 frame word `command[6:0] | (device << 7)` (R64). -/
def sirc15Word (c : BitVec 7) (d : BitVec 8) : Nat :=
  c.toNat ||| (d.toNat <<< 7)

/-- The SIRC-20 frame word `command[6:0] | (device << 7) | (ext << 12)` (R65). -/
def sirc20Word (c : BitVec 7) (d : BitVec 5) (e : BitVec 8) : Nat :=
  c.toNat ||| (d.toNat <<< 7) ||| (e.toNat <<< 12)

/-- The 23-bit frame word `command[6:0] | (device << 7) | (ext << 15)` (R75). -/
def sirc23Word (c : BitVec 7) (d : BitVec 8) (e : BitVec 8) : Nat :=
  c.toNat ||| (d.toNat <<< 7) ||| (e.toNat <<< 15)

/-- The NEC-32 frame word, the 32-bit packer (R66). -/
def nec32Word (l h c i : Byte) : Nat :=
  l.toNat ||| (h.toNat <<< 8) ||| (c.toNat <<< 16) ||| (i.toNat <<< 24)

/-- The code of every instruction, written from the same tables (R60, R62 to R66, R68, R75). -/
def encode : Instr → Code
  | .b2v => .request 0
  | .v2pSirc => .request 1
  | .v2pNec => .request 2
  | .classify => .request 3
  | .encSirc => .request 4
  | .decSirc => .request 5
  | .encNec => .request 6
  | .decNec => .request 7
  | .necRepeat => .request 8
  | .sirc12 c d => .sircFrame 12 (sirc12Word c d)
  | .sirc15 c d => .sircFrame 15 (sirc15Word c d)
  | .sirc20 c d e => .sircFrame 20 (sirc20Word c d e)
  | .sirc23 c d e => .sircFrame 23 (sirc23Word c d e)
  | .nec32 l h c i => .necFrame 32 (nec32Word l h c i)
  | .sircBit0 => .sircSymbol false
  | .sircBit1 => .sircSymbol true
  | .necBit0 => .necSymbol false
  | .necBit1 => .necSymbol true

/-- The operation select held in a table word: `REQ.op` is bits 3 to 0 (R21, R60; table mask 15), and a word has no other
bit of it. -/
def opOfTableWord (_nbits w : Nat) : BitVec 4 :=
  BitVec.ofNat 4 w

/-- What the decoder reads from a word numbered as spec/opcode_table.json numbers it: the operation its low four bits
select. A word of more than one byte is no operation word, and a frame word or a symbol is read by `decode` at its own place
(log entry 8). -/
def decodeTableWord (nbits w : Nat) : Option Instr :=
  if nbits ≤ 8 then
    match decode (.request (opOfTableWord nbits w)) with
    | .ok i => some i
    | .error _ => none
  else none

end Sys2Proof
end

