-- ==== Sys2Proof/Machine/Constants.lean ====
section
/-! DEFINITION. The hardwired constants of R27, each under the name R27 gives it. They are read-only and hold at all times,
straight after reset too. They stand here, not in Config, so that a test could correct one (the source's literals are
unaudited). -/

namespace Sys2Proof.Machine.Const

/-- `SIRC_HDR_MARK`. -/
def sircHdrMark : Pulse := 2400
/-- `SIRC_HDR_SPACE`. -/
def sircHdrSpace : Pulse := 600
/-- `SIRC_ONE_MARK`. -/
def sircOneMark : Pulse := 1200
/-- `SIRC_ZERO_MARK`. -/
def sircZeroMark : Pulse := 600
/-- `SIRC_SPACE`. -/
def sircSpace : Pulse := 600
/-- `SIRC_HDR_LO`. -/
def sircHdrLo : Nat := 2200
/-- `SIRC_HDR_HI`. -/
def sircHdrHi : Nat := 2600
/-- `SIRC_COUNTS`: SIRC-12, SIRC-15, SIRC-20. -/
def sircCounts : List Nat := [25, 31, 41]
/-- The pulse count of SIRC-15, the only one with an 8-bit device field (R110). -/
def sirc15Count : Nat := 31
/-- `SIRC_CMD_BITS`. -/
def sircCmdBits : Nat := 7
/-- `SIRC_DEV_BITS`, the short width. -/
def sircDev5Bits : Nat := 5
/-- `SIRC_DEV_BITS`, the long width. -/
def sircDev8Bits : Nat := 8
/-- `SIRC_EXT_BITS`. -/
def sircExtBits : Nat := 8
/-- The mask that leaves the low 7 bits of a command (R69). -/
def sircCmdMask : Nat := 0x7F
/-- `SIRC_CMD_LIMIT`. -/
def sircCmdLimit : Nat := 2 ^ 12
/-- `SIRC_DEV5_LIMIT`. -/
def sircDev5Limit : Nat := 2 ^ 5
/-- `SIRC_DEV8_LIMIT`. -/
def sircDev8Limit : Nat := 2 ^ 8
/-- `SIRC_EXT_LIMIT`. -/
def sircExtLimit : Nat := 2 ^ 8
/-- `NEC_AGC_MARK`. -/
def necAgcMark : Pulse := 9000
/-- `NEC_AGC_SPACE`. -/
def necAgcSpace : Pulse := 4500
/-- `NEC_BIT_MARK`. -/
def necBitMark : Pulse := 560
/-- `NEC_ONE_SPACE`. -/
def necOneSpace : Pulse := 1690
/-- `NEC_ZERO_SPACE`. -/
def necZeroSpace : Pulse := 560
/-- `NEC_TRAIL_MARK`. -/
def necTrailMark : Pulse := 560
/-- `NEC_REPEAT`: a mark, a space, a mark (R67, R122). -/
def necRepeat : List Pulse := [9200, 2250, 560]
/-- `NEC_AGC_MARK_LO`. -/
def necAgcMarkLo : Nat := 8800
/-- `NEC_AGC_MARK_HI`. -/
def necAgcMarkHi : Nat := 9300
/-- `NEC_RPT_SPACE_LO`. -/
def necRptSpaceLo : Nat := 2100
/-- `NEC_RPT_SPACE_HI`. -/
def necRptSpaceHi : Nat := 2300
/-- `NEC_RPT_MARK_LO`. -/
def necRptMarkLo : Nat := 450
/-- `NEC_RPT_MARK_HI`. -/
def necRptMarkHi : Nat := 700
/-- `NEC_AGC_SPACE_LO`. -/
def necAgcSpaceLo : Nat := 4400
/-- `NEC_AGC_SPACE_HI`. -/
def necAgcSpaceHi : Nat := 4600
/-- `NEC_COUNTS`: repeat, command frame. -/
def necCounts : List Nat := [3, 67]
/-- The pulse count of the repeat pattern (R27, R133). -/
def necRepeatCount : Nat := 3
/-- The data bits of a NEC frame (R8). -/
def necDataBits : Nat := 32
/-- `NEC_CMD_LIMIT`. -/
def necCmdLimit : Nat := 2 ^ 8
/-- `NEC_ADDR_LIMIT`. -/
def necAddrLimit : Nat := 2 ^ 16
/-- `NEC_LEGACY_LIMIT`. -/
def necLegacyLimit : Nat := 2 ^ 8
/-- The numerator of `RATIO` = 1.75 = 7/4. -/
def ratioNum : Nat := 7
/-- The denominator of `RATIO` = 1.75 = 7/4. -/
def ratioDen : Nat := 4
/-- `CAPTURE_GAP`: a constant of the caller's side, not used by the block (R27, R176). -/
def captureGap : Nat := 10000

end Sys2Proof.Machine.Const
end

