-- ==== Sys2Proof/Machine/State.lean ====
section
/-! DEFINITION. The machine's state: the request record (R21), the response record (R22) and whether a request waits for
its response; the faults and the refusals; the state after reset (R31). -/

namespace Sys2Proof.Machine

/-- The request record `REQ` (R21). Numeric operands are naturals of any size (R9, R10); `nbits` and `n` are the lengths of
`bits` and `P` and are not stored a second time. -/
structure Request where
  /-- Operation select (R60). -/
  op : BitVec 4
  /-- SIRC command or NEC command. -/
  command : Nat
  /-- SIRC device. -/
  device : Nat
  /-- An extended device is given. -/
  extPresent : Bool
  /-- SIRC extended device, meaningful only when `extPresent`. -/
  ext : Nat
  /-- The source's `force_8bit_device`. -/
  force8 : Bool
  /-- NEC address. -/
  address : Nat
  /-- The integer V2P serializes. -/
  value : Nat
  /-- How many bits of `value` V2P serializes. -/
  width : Nat
  /-- First duration of the pair CLASSIFY judges. -/
  mark : Pulse
  /-- Second duration of the pair CLASSIFY judges. -/
  space : Pulse
  /-- The bit sequence of B2V, element 0 first. -/
  bits : List Bool
  /-- The input pulse sequence of the decoders, element 0 first. -/
  P : List Pulse
  deriving DecidableEq, Repr

/-- The success variants of R22, each with the fields it carries. -/
inductive Success where
  /-- PULSES: an output pulse sequence `Q`; `m` is its length. -/
  | pulses (Q : List Pulse)
  /-- SIRC2: command and device. -/
  | sirc2 (command device : Byte)
  /-- SIRC3: command, device and extended device. -/
  | sirc3 (command device ext : Byte)
  /-- NEC_CMD: address and command. -/
  | necCmd (address : BitVec 16) (command : Byte)
  /-- NEC_RPT: the repeat signal, without a field. -/
  | necRpt
  /-- BIT: the result of CLASSIFY. -/
  | bit (b : Bool)
  /-- VALUE: the result of B2V. -/
  | value (v : Nat)
  deriving DecidableEq, Repr

/-- The ten error kinds of R140. -/
inductive ErrorKind where
  | invalidCommand
  | invalidDevice
  | invalidDeviceId
  | invalidExtendedDevice
  | invalidAddress
  | invalidPulseCount
  | invalidHeader
  | invalidAgcMark
  | invalidAgcSpace
  | checksumMismatch
  deriving DecidableEq, Repr

/-- How an operation ends: `return Ok(...)` or `raise <ErrorKind>` (R15). -/
inductive Result where
  | ok (v : Success)
  | raise (k : ErrorKind)
  deriving DecidableEq, Repr

/-- The response record `RSP` (R22), a tagged union. A field that R22 or R31 says is not part of the response, or must not be
read, does not exist in that case (U4, U6). -/
inductive Response where
  /-- `RSP.valid = 0`: no operation has ended since reset (R22, R31). -/
  | empty
  /-- `valid = 1`, `status = OK`, with one success variant. -/
  | ok (v : Success)
  /-- `valid = 1`, `status` an error kind, and nothing else (R143). -/
  | error (k : ErrorKind)
  deriving DecidableEq, Repr

/-- The state. Nothing but `rsp` is left behind by an operation (R20). -/
structure State where
  /-- The request record, written by the caller only (R23). -/
  req : Request
  /-- The caller has presented `req` and `rsp` is not its response yet (the model's own field; log entry 3). -/
  pending : Bool
  /-- The response record, written by the block only (R23). -/
  rsp : Response
  deriving DecidableEq, Repr

/-- Faults. -/
inductive Fault where
  /-- Raised by the pulse read `P[i]` when element `i` does not exist (R45 defines the read only inside the sequence). SAFE:
  the machine stops. No operation reaches it. -/
  | readOutside (index : Nat)
  deriving DecidableEq, Repr

/-- Refusals. -/
inductive Refusal where
  /-- Raised by an arm of `exec` whose instruction has no meaning yet. SAFE. No arm raises it in this package. -/
  | notModelled (mnemonic : String)
  /-- Raised by `step` on a request with `REQ.op` 9 to 15: it selects no operation, has no response and changes nothing
  (R74). SAFE: the machine stops. -/
  | reservedOp (op : BitVec 4)
  deriving DecidableEq, Repr

/-- A request in which every operand is 0, absent or empty. -/
def Request.zero : Request :=
  { op := 0, command := 0, device := 0, extPresent := false, ext := 0, force8 := false, address := 0,
    value := 0, width := 0, mark := 0, space := 0, bits := [], P := [] }

/-- The machine right after reset: `RSP.valid = 0` (R31, R170). The spec gives `REQ` no reset value, since it is the
caller's: DESIGN CHOICE, every operand 0 and nothing presented (log entries 3 and 5). -/
def State.reset : State :=
  { req := Request.zero, pending := false, rsp := .empty }

end Sys2Proof.Machine
end

