-- ==== Sys2Proof/Machine/Flags.lean ====
section
/-! DEFINITION. The comparators and the status. The block keeps no flags (R25): what an operation tests are windows (R12),
the ratio (R93) and counts, and the only status is the one of the response (R22, R141). -/

namespace Sys2Proof.Machine

/-- `in_window(v, lo, hi)`, inclusive at both ends (R12). -/
def inWindow (v : Pulse) (lo hi : Nat) : Bool :=
  decide (lo ≤ v.toNat) && decide (v.toNat ≤ hi)

/-- The pulse-width discriminator: 1 exactly when the second duration is over 7/4 of the first, compared exactly (R93). The
arguments are positional (R52). -/
def classifyPair (first second : Pulse) : Bool :=
  decide (Const.ratioNum * first.toNat < Const.ratioDen * second.toNat)

/-- The code of an error kind in `RSP.status` (R141). -/
def ErrorKind.code : ErrorKind → BitVec 4
  | .invalidCommand => 1
  | .invalidDevice => 2
  | .invalidDeviceId => 3
  | .invalidExtendedDevice => 4
  | .invalidAddress => 5
  | .invalidPulseCount => 6
  | .invalidHeader => 7
  | .invalidAgcMark => 8
  | .invalidAgcSpace => 9
  | .checksumMismatch => 10

/-- The errors of the encode taxonomy (R140); the others are decode errors. -/
def ErrorKind.isEncode : ErrorKind → Bool
  | .invalidCommand => true
  | .invalidDevice => true
  | .invalidDeviceId => true
  | .invalidExtendedDevice => true
  | .invalidAddress => true
  | .invalidPulseCount => false
  | .invalidHeader => false
  | .invalidAgcMark => false
  | .invalidAgcSpace => false
  | .checksumMismatch => false

/-- `RSP.valid` (R22). -/
def Response.valid : Response → Bool
  | .empty => false
  | .ok _ => true
  | .error _ => true

/-- `RSP.status`, OK being 0 (R141); not to be read while `RSP.valid = 0`, so there is none (R31). -/
def Response.status : Response → Option (BitVec 4)
  | .empty => none
  | .ok _ => some 0
  | .error k => some k.code

end Sys2Proof.Machine
end

