-- ==== Sys2Proof/Machine/Operands.lean ====
section
/-! DEFINITION. Operand forms: bits of a natural, bit sequences and their slices (R11, R13, R14), the symbol code (R68), the
field widths and address bytes of an encode request (R69, R103, R123), and the operand checks in their order (R101, R121). -/

namespace Sys2Proof.Machine

/-- `bits_of(v, w)`: the bit sequence of length `w` whose element `i` is bit `i` of `v` (R14). -/
def bitsOf (v w : Nat) : List Bool :=
  (List.range w).map v.testBit

/-- The value of a bit sequence, element 0 least significant: the sum of `b[i] * 2^i` (R90). -/
def valueOf : List Bool → Nat
  | [] => 0
  | b :: bs => b.toNat + 2 * valueOf bs

/-- `s[a ..< b]`: elements `a` to `b - 1` (R13). -/
def slice {α : Type} (s : List α) (a b : Nat) : List α :=
  (s.take b).drop a

/-- The 8-bit complement `~a & 0xFF` (R11). -/
def comp8 (a : Nat) : Nat :=
  (~~~(BitVec.ofNat 8 a)).toNat

/-- The SIRC symbol of a bit: (mark, space), the long duration on the mark (R68). -/
def sircSymbol (b : Bool) : List Pulse :=
  if b then [Const.sircOneMark, Const.sircSpace] else [Const.sircZeroMark, Const.sircSpace]

/-- The NEC symbol of a bit: (mark, space), the long duration on the space (R68). -/
def necSymbol (b : Bool) : List Pulse :=
  if b then [Const.necBitMark, Const.necOneSpace] else [Const.necBitMark, Const.necZeroSpace]

/-- `V2P_SIRC(value, width)` as a function inside an operation (R91, R95). -/
def v2pSirc (value width : Nat) : List Pulse :=
  (bitsOf value width).flatMap sircSymbol

/-- `V2P_NEC(value, width)` as a function inside an operation (R92, R95). -/
def v2pNec (value width : Nat) : List Pulse :=
  (bitsOf value width).flatMap necSymbol

/-- The width of the SIRC device field: 8 if `device >= 2^5` or `force8`, else 5 (R103). -/
def sircDeviceWidth (device : Nat) (force8 : Bool) : Nat :=
  if Const.sircDev5Limit ≤ device ∨ force8 = true then Const.sircDev8Bits else Const.sircDev5Bits

/-- The operand checks of ENC_SIRC, first failing check first (R100, R101). -/
def sircCheck (command device : Nat) (extPresent : Bool) (ext : Nat) : Option ErrorKind :=
  if Const.sircCmdLimit ≤ command then some .invalidCommand
  else if extPresent then
    if Const.sircExtLimit ≤ ext then some .invalidExtendedDevice
    else if Const.sircDev5Limit ≤ device then some .invalidDevice
    else none
  else if Const.sircDev8Limit ≤ device then some .invalidDeviceId
  else none

/-- `address_low` of a NEC frame (R66, R120). -/
def necAddressLow (address : Nat) : Nat :=
  if address < Const.necLegacyLimit then address else address &&& 0xFF

/-- `address_high` of a NEC frame: the complement in legacy mode, else the high byte (R66, R120, R123). -/
def necAddressHigh (address : Nat) : Nat :=
  if address < Const.necLegacyLimit then comp8 address else (address >>> 8) &&& 0xFF

/-- The operand checks of ENC_NEC, first failing check first (R120, R121, R124). -/
def necCheck (address command : Nat) : Option ErrorKind :=
  if Const.necCmdLimit ≤ command then some .invalidCommand
  else if Const.necAddrLimit ≤ address then some .invalidAddress
  else if address < Const.necLegacyLimit then none
  else if necAddressLow address = comp8 (necAddressHigh address) then some .invalidAddress
  else none

/-- The address DEC_NEC gives for two address bytes: the low byte alone in legacy mode, else `(high << 8) | low`
(R130, R134). -/
def necAddress (low high : Nat) : Nat :=
  if high = comp8 low then low else (high <<< 8) ||| low

end Sys2Proof.Machine
end

