-- ==== Sys2Proof/Machine/Ops.lean ====
section
/-! DEFINITION. The named operations over the records and the sequences: presenting a request, fetching its operation,
ending an operation with a result or an error, the pulse read, and the reset event. Ending with an error is this hardware's
taking of an exception; there is no return from one (R143, R146). -/

namespace Sys2Proof.Machine

/-- The caller presents a request: it writes REQ and nothing else of the machine (R21, R23). Two points the spec leaves open are
DESIGN CHOICES. RSP, with its `valid`, stays as it was until the new response replaces it (log entry 18). A request presented
while another waits takes its place, and the one that waited is never answered (U5; log entry 19). -/
def State.present (s : State) (r : Request) : State :=
  { s with req := r, pending := true }

/-- The operation ends: RSP becomes the response to the request, replacing the one before it (R22, R177); REQ is
untouched (R30, R55). -/
def State.respond (s : State) (r : Response) : State :=
  { s with rsp := r, pending := false }

/-- `return Ok(...)` (R15). -/
def State.succeed (s : State) (v : Success) : State :=
  s.respond (.ok v)

/-- `raise <ErrorKind>` (R15, R143): the one way an operation takes an error. `RSP.valid = 1`, `RSP.status` is the kind,
nothing is saved, no mode changes and control goes nowhere. -/
def State.raise (s : State) (k : ErrorKind) : State :=
  s.respond (.error k)

/-- The end of an operation: its result becomes the response (R15). -/
def State.finish (s : State) (r : Result) : State :=
  match r with
  | .ok v => s.succeed v
  | .raise k => s.raise k

/-- The end of an operation that reads its sequence: as `State.finish`, or a fault where a read left the sequence (R45). -/
def State.finishRead (s : State) (r : Except Fault Result) : Host.Outcome State Fault Refusal :=
  match r with
  | .ok r => .next (s.finish r)
  | .error f => .fault f

/-- A reset between steps, for any state: `RSP.valid = 0`, a request in progress is abandoned, REQ is not affected
(R31, R170). -/
def State.resetEvent (s : State) : State :=
  { s with rsp := .empty, pending := false }

/-- The operation select the block takes from the request presented (R21, R60). -/
def fetchOp (s : State) : BitVec 4 :=
  s.req.op

/-- `s` with the operation select `op` presented and every other operand as it was. -/
def State.placeOp (s : State) (op : BitVec 4) : State :=
  s.present { s.req with op := op }

/-- The pulse read `P[i]`: the whole 16-bit element, defined inside the sequence only (R45). -/
def readPulse (P : List Pulse) (i : Nat) : Except Fault Pulse :=
  match P[i]? with
  | some v => .ok v
  | none => .error (.readOutside i)

/-- The bit of the pair at `base`: `CLASSIFY(P[base], P[base + 1])` (R51). -/
def readBit (P : List Pulse) (base : Nat) : Except Fault Bool :=
  match readPulse P base with
  | .error f => .error f
  | .ok first =>
    match readPulse P (base + 1) with
    | .error f => .error f
    | .ok second => .ok (classifyPair first second)

/-- The bits of `nb` pairs in order, pair `k` at `base + 2k` (R51). -/
def readBits (P : List Pulse) (base : Nat) : Nat → Except Fault (List Bool)
  | 0 => .ok []
  | nb + 1 =>
    match readBit P base with
    | .error f => .error f
    | .ok b =>
      match readBits P (base + 2) nb with
      | .error f => .error f
      | .ok bs => .ok (b :: bs)

end Sys2Proof.Machine
end

