-- ==== Sys2Proof/Machine/Frames.lean ====
section
/-! DEFINITION. The meanings of the frame rows and the symbol rows of the table: the emission each format describes
(R56, R62 to R66, R68, R75). No `REQ.op` selects them (R60); log entry 7 says what the model takes them to be. -/

namespace Sys2Proof.Machine

/-- The pulses of a SIRC frame of `nb` data bits with frame word `w`: `2 * nb + 1` of them (R56, R62). -/
def sircFramePulses (nb w : Nat) : List Pulse :=
  ([Const.sircHdrMark, Const.sircHdrSpace] ++ v2pSirc w nb).dropLast

/-- The pulses of a NEC frame with frame word `w`: 67 of them (R56, R62). -/
def necFramePulses (w : Nat) : List Pulse :=
  [Const.necAgcMark, Const.necAgcSpace] ++ v2pNec w Const.necDataBits ++ [Const.necTrailMark]

/-- The emission of a SIRC-12 frame (R63). -/
def execSirc12 (c : BitVec 7) (d : BitVec 5) (s : State) : Host.Outcome State Fault Refusal :=
  .next (s.succeed (.pulses (sircFramePulses 12 (sirc12Word c d))))

/-- The emission of a SIRC-15 frame (R64). -/
def execSirc15 (c : BitVec 7) (d : BitVec 8) (s : State) : Host.Outcome State Fault Refusal :=
  .next (s.succeed (.pulses (sircFramePulses 15 (sirc15Word c d))))

/-- The emission of a SIRC-20 frame (R65). -/
def execSirc20 (c : BitVec 7) (d : BitVec 5) (e : BitVec 8) (s : State) : Host.Outcome State Fault Refusal :=
  .next (s.succeed (.pulses (sircFramePulses 20 (sirc20Word c d e))))

/-- The emission of the non-standard 23-bit frame (R75). -/
def execSirc23 (c : BitVec 7) (d : BitVec 8) (e : BitVec 8) (s : State) : Host.Outcome State Fault Refusal :=
  .next (s.succeed (.pulses (sircFramePulses 23 (sirc23Word c d e))))

/-- The emission of a NEC-32 frame (R66). -/
def execNec32 (l h c i : Byte) (s : State) : Host.Outcome State Fault Refusal :=
  .next (s.succeed (.pulses (necFramePulses (nec32Word l h c i))))

/-- The emission of the SIRC symbol of a 0 bit (R68). -/
def execSircBit0 (s : State) : Host.Outcome State Fault Refusal :=
  .next (s.succeed (.pulses (sircSymbol false)))

/-- The emission of the SIRC symbol of a 1 bit (R68). -/
def execSircBit1 (s : State) : Host.Outcome State Fault Refusal :=
  .next (s.succeed (.pulses (sircSymbol true)))

/-- The emission of the NEC symbol of a 0 bit (R68). -/
def execNecBit0 (s : State) : Host.Outcome State Fault Refusal :=
  .next (s.succeed (.pulses (necSymbol false)))

/-- The emission of the NEC symbol of a 1 bit (R68). -/
def execNecBit1 (s : State) : Host.Outcome State Fault Refusal :=
  .next (s.succeed (.pulses (necSymbol true)))

end Sys2Proof.Machine
end

