-- ==== Sys2Proof/Machine/Nec.lean ====
section
/-! DEFINITION. The NEC encoder, the constant NEC_REPEAT and the NEC decoder (43_nec_encoder.md, 44_nec_decoder.md). -/

namespace Sys2Proof.Machine

/-- The pulses of an accepted ENC_NEC request: AGC pair, four bytes, trailing mark (R120). -/
def necPulses (address command : Nat) : List Pulse :=
  [Const.necAgcMark, Const.necAgcSpace]
    ++ v2pNec (necAddressLow address) 8
    ++ v2pNec (necAddressHigh address) 8
    ++ v2pNec command 8
    ++ v2pNec (comp8 command) 8
    ++ [Const.necTrailMark]

/-- ENC_NEC as a function of its operands (R120). -/
def encodeNec (address command : Nat) : Result :=
  match necCheck address command with
  | some k => .raise k
  | none => .ok (.pulses (necPulses address command))

/-- The pulse-repeat detector: the windows on the second and third pulse (R131). -/
def isRepeat (p1 p2 : Pulse) : Bool :=
  inWindow p1 Const.necRptSpaceLo Const.necRptSpaceHi
    && inWindow p2 Const.necRptMarkLo Const.necRptMarkHi

/-- The checksum verifier, the unpacker and the address-mode resolver for the 32 data bits `b` of a frame
(R130, R134). -/
def necFields (b : List Bool) : Result :=
  let command := valueOf (slice b 16 24)
  let inverted := valueOf (slice b 24 32)
  if inverted ≠ comp8 command then .raise .checksumMismatch
  else
    .ok (.necCmd (BitVec.ofNat 16 (necAddress (valueOf (slice b 0 8)) (valueOf (slice b 8 16))))
      (BitVec.ofNat 8 command))

/-- DEC_NEC after the count and the AGC mark are good: repeat test, AGC space, then the data (R131, R132, R133). -/
def decodeNecBody (P : List Pulse) (p1 p2 : Pulse) : Except Fault Result :=
  if isRepeat p1 p2 then .ok (.ok .necRpt)
  else if inWindow p1 Const.necAgcSpaceLo Const.necAgcSpaceHi = false then .ok (.raise .invalidAgcSpace)
  else if P.length = Const.necRepeatCount then .ok (.raise .checksumMismatch)
  else
    match readBits P 2 Const.necDataBits with
    | .error f => .error f
    | .ok b => .ok (necFields b)

/-- DEC_NEC as a function of its pulse sequence (R130, R132). -/
def decodeNec (P : List Pulse) : Except Fault Result :=
  if P.length ∉ Const.necCounts then .ok (.raise .invalidPulseCount)
  else
    match readPulse P 0 with
    | .error f => .error f
    | .ok p0 =>
      if inWindow p0 Const.necAgcMarkLo Const.necAgcMarkHi = false then .ok (.raise .invalidAgcMark)
      else
        match readPulse P 1 with
        | .error f => .error f
        | .ok p1 =>
          match readPulse P 2 with
          | .error f => .error f
          | .ok p2 => decodeNecBody P p1 p2

/-- ENC_NEC (R120). -/
def execEncNec (s : State) : Host.Outcome State Fault Refusal :=
  .next (s.finish (encodeNec s.req.address s.req.command))

/-- DEC_NEC (R130). -/
def execDecNec (s : State) : Host.Outcome State Fault Refusal :=
  s.finishRead (decodeNec s.req.P)

/-- NEC_REPEAT (R122). -/
def execNecRepeat (s : State) : Host.Outcome State Fault Refusal :=
  .next (s.succeed (.pulses Const.necRepeat))

end Sys2Proof.Machine
end

