-- ==== Sys2Proof/Machine/Primitives.lean ====
section
/-! DEFINITION. The meanings of the four bit/pulse primitives (40_primitives.md). -/

namespace Sys2Proof.Machine

/-- B2V (R90). -/
def execB2v (s : State) : Host.Outcome State Fault Refusal :=
  .next (s.succeed (.value (valueOf s.req.bits)))

/-- V2P_SIRC (R91). -/
def execV2pSirc (s : State) : Host.Outcome State Fault Refusal :=
  .next (s.succeed (.pulses (v2pSirc s.req.value s.req.width)))

/-- V2P_NEC (R92). -/
def execV2pNec (s : State) : Host.Outcome State Fault Refusal :=
  .next (s.succeed (.pulses (v2pNec s.req.value s.req.width)))

/-- CLASSIFY (R93). -/
def execClassify (s : State) : Host.Outcome State Fault Refusal :=
  .next (s.succeed (.bit (classifyPair s.req.mark s.req.space)))

end Sys2Proof.Machine
end

