-- ==== Sys2Proof/Machine/Sirc.lean ====
section
/-! DEFINITION. The SIRC encoder and decoder (41_sirc_encoder.md, 42_sirc_decoder.md). -/

namespace Sys2Proof.Machine

/-- The pulses of an accepted ENC_SIRC request: header mark, header space, the fields, without the last space
(R100, R102). -/
def sircPulses (command device : Nat) (extPresent : Bool) (ext : Nat) (force8 : Bool) : List Pulse :=
  ([Const.sircHdrMark, Const.sircHdrSpace]
    ++ v2pSirc (command &&& Const.sircCmdMask) Const.sircCmdBits
    ++ v2pSirc device (sircDeviceWidth device force8)
    ++ (if extPresent then v2pSirc ext Const.sircExtBits else [])).dropLast

/-- ENC_SIRC as a function of its operands (R100). -/
def encodeSirc (command device : Nat) (extPresent : Bool) (ext : Nat) (force8 : Bool) : Result :=
  match sircCheck command device extPresent ext with
  | some k => .raise k
  | none => .ok (.pulses (sircPulses command device extPresent ext force8))

/-- The field split of DEC_SIRC for a sequence of `n` pulses whose data bits are `b` (R110, R114). -/
def sircFields (n : Nat) (b : List Bool) : Success :=
  let command := BitVec.ofNat 8 (valueOf (slice b 0 7))
  if n = Const.sirc15Count then
    .sirc2 command (BitVec.ofNat 8 (valueOf (slice b 7 15)))
  else
    let device := BitVec.ofNat 8 (valueOf (slice b 7 12))
    let e := slice b 12 b.length
    if e.isEmpty then .sirc2 command device
    else .sirc3 command device (BitVec.ofNat 8 (valueOf e))

/-- DEC_SIRC as a function of its pulse sequence (R110, R111). -/
def decodeSirc (P : List Pulse) : Except Fault Result :=
  if P.length ∉ Const.sircCounts then .ok (.raise .invalidPulseCount)
  else
    match readPulse P 0 with
    | .error f => .error f
    | .ok header =>
      if inWindow header Const.sircHdrLo Const.sircHdrHi = false then .ok (.raise .invalidHeader)
      else
        match readBits P 1 ((P.length - 1) / 2) with
        | .error f => .error f
        | .ok b => .ok (.ok (sircFields P.length b))

/-- ENC_SIRC (R100). -/
def execEncSirc (s : State) : Host.Outcome State Fault Refusal :=
  .next (s.finish (encodeSirc s.req.command s.req.device s.req.extPresent s.req.ext s.req.force8))

/-- DEC_SIRC (R110). -/
def execDecSirc (s : State) : Host.Outcome State Fault Refusal :=
  s.finishRead (decodeSirc s.req.P)

end Sys2Proof.Machine
end

