-- ==== Sys2Proof/Machine/Dispatch.lean ====
section
/-! DEFINITION. One arm per constructor of Instr. -/

namespace Sys2Proof.Machine

def exec (i : Instr) (s : State) : Host.Outcome State Fault Refusal :=
  match i with
  | .b2v => Sys2Proof.Machine.execB2v s
  | .v2pSirc => Sys2Proof.Machine.execV2pSirc s
  | .v2pNec => Sys2Proof.Machine.execV2pNec s
  | .classify => Sys2Proof.Machine.execClassify s
  | .encSirc => Sys2Proof.Machine.execEncSirc s
  | .decSirc => Sys2Proof.Machine.execDecSirc s
  | .encNec => Sys2Proof.Machine.execEncNec s
  | .decNec => Sys2Proof.Machine.execDecNec s
  | .necRepeat => Sys2Proof.Machine.execNecRepeat s
  | .sirc12 c d => Sys2Proof.Machine.execSirc12 c d s
  | .sirc15 c d => Sys2Proof.Machine.execSirc15 c d s
  | .sirc20 c d e => Sys2Proof.Machine.execSirc20 c d e s
  | .sirc23 c d e => Sys2Proof.Machine.execSirc23 c d e s
  | .nec32 l h c k => Sys2Proof.Machine.execNec32 l h c k s
  | .sircBit0 => Sys2Proof.Machine.execSircBit0 s
  | .sircBit1 => Sys2Proof.Machine.execSircBit1 s
  | .necBit0 => Sys2Proof.Machine.execNecBit0 s
  | .necBit1 => Sys2Proof.Machine.execNecBit1 s

end Sys2Proof.Machine
end

