-- ==== Sys2Proof/Machine/Step.lean ====
section
/-! DEFINITION. One step of the block, and the host's way of placing an operation word. -/

namespace Sys2Proof.Machine

/-- One step: with a request pending, the operation its select names runs as one atomic step (R7); a reserved select is
refused and changes nothing (R74). With none pending the block waits: the state is unchanged (log entry 3). -/
def step (s : State) : Host.Outcome State Fault Refusal :=
  match s.pending with
  | false => .next s
  | true =>
    match decode (.request (fetchOp s)) with
    | .ok i => exec i s
    | .error _ => .refused (.reservedOp (fetchOp s))

/-- `s` with the operation word `w` of spec/opcode_table.json presented (log entry 8). Only the select and the presentation
are set: the other operands of REQ stand. -/
def State.withFetchWord (s : State) (nbits w : Nat) : State :=
  s.placeOp (opOfTableWord nbits w)

end Sys2Proof.Machine
end

