-- ==== Sys2Proof/Machine/Caller.lean ====
section
/-! DEFINITION. The caller's side, as far as the spec describes it: the call syntax (R76), serving requests one after another
(R24, R57), the pseudo-operation DECODE_ANY (R77), and the capture ingestion (R176, R180). None of it is an operation of the block; it
is what a caller does with the block's operations. -/

namespace Sys2Proof.Machine

/-- The calls of the source's syntax (R76); an optional argument is an `Option` or a flag. -/
inductive Call where
  | bitsToValue (bits : List Bool)
  | valueToPulsesSirc (value width : Nat)
  | valueToPulsesNec (value width : Nat)
  | classifyPulsePair (mark space : Pulse)
  | encodeSirc (command device : Nat) (extended : Option Nat) (force8 : Bool)
  | decodeSirc (pulses : List Pulse)
  | encodeNec (address command : Nat)
  | decodeNec (pulses : List Pulse)
  | necRepeat
  deriving DecidableEq, Repr

/-- The request a call stands for (R76). Fields the operation does not read are 0 or empty. -/
def Call.request : Call → Request
  | .bitsToValue bits => { Request.zero with op := 0, bits := bits }
  | .valueToPulsesSirc value width => { Request.zero with op := 1, value := value, width := width }
  | .valueToPulsesNec value width => { Request.zero with op := 2, value := value, width := width }
  | .classifyPulsePair mark space => { Request.zero with op := 3, mark := mark, space := space }
  | .encodeSirc command device extended force8 =>
    { Request.zero with
      op := 4, command := command, device := device, extPresent := extended.isSome,
      ext := extended.getD 0, force8 := force8 }
  | .decodeSirc pulses => { Request.zero with op := 5, P := pulses }
  | .encodeNec address command => { Request.zero with op := 6, address := address, command := command }
  | .decodeNec pulses => { Request.zero with op := 7, P := pulses }
  | .necRepeat => { Request.zero with op := 8 }

/-- The block serves a list of requests, each complete before the next is presented (R24); the responses in order. -/
def serve (s : State) : List Request → Host.Outcome (State × List Response) Fault Refusal
  | [] => .next (s, [])
  | r :: rs =>
    match step (s.present r) with
    | .fault f => .fault f
    | .refused f => .refused f
    | .next t =>
      match serve t rs with
      | .fault f => .fault f
      | .refused f => .refused f
      | .next (u, rsps) => .next (u, t.rsp :: rsps)

/-- What DECODE_ANY returns: what a decoder gave, or the pulses as they are (`RAW`, R77). -/
inductive Decoded where
  | command (v : Success)
  | raw (P : List Pulse)
  deriving DecidableEq, Repr

/-- What DECODE_ANY makes of one decoder's response: its result if the status is OK (R77). -/
def Response.accepted : Response → Option Success
  | .empty => none
  | .ok v => some v
  | .error _ => none

/-- DECODE_ANY, second half: DEC_NEC, else the raw pulses (R77). -/
def decodeAnyNec (s : State) (P : List Pulse) : Host.Outcome (State × Decoded) Fault Refusal :=
  match step (s.present (Call.decodeNec P).request) with
  | .fault f => .fault f
  | .refused f => .refused f
  | .next t =>
    match t.rsp.accepted with
    | some v => .next (t, .command v)
    | none => .next (t, .raw P)

/-- DECODE_ANY: DEC_SIRC, then DEC_NEC, then the raw pulses (R77, R173). -/
def decodeAny (s : State) (P : List Pulse) : Host.Outcome (State × Decoded) Fault Refusal :=
  match step (s.present (Call.decodeSirc P).request) with
  | .fault f => .fault f
  | .refused f => .refused f
  | .next t =>
    match t.rsp.accepted with
    | some v => .next (t, .command v)
    | none => decodeAnyNec t P

/-- Consecutive differences of edge timestamps, the first step of the capture ingestion (R176). The spec leaves the unit of the
timestamps open (N8). DESIGN CHOICE, log entry 20: they are whole microseconds and do not decrease. -/
def deltas : List Nat → List Nat
  | [] => []
  | [_] => []
  | a :: b :: rest => (b - a) :: deltas (b :: rest)

/-- What the caller's capture side does with a gap element, which the spec leaves to it (R176, U12, N8; log entry 11). -/
inductive GapUse where
  /-- The gap belongs to neither sequence. -/
  | dropped
  /-- The gap ends the earlier sequence. -/
  | endsEarlier
  /-- The gap begins the later sequence. -/
  | beginsLater
  deriving DecidableEq, Repr

/-- A captured interval as an element of a pulse sequence: itself if it fits 16 bits, and no element otherwise (R180). -/
def asElement (d : Nat) : List Pulse :=
  if d < 2 ^ 16 then [BitVec.ofNat 16 d] else []

/-- The capture split: a new sequence begins wherever a gap exceeds `CAPTURE_GAP`, strictly (R176). A gap of 65,536 or more is
an element of neither sequence, whatever `use` says (R180). The spec does not say whether a gap beside another, or at an end of
the capture, leaves an empty sequence. DESIGN CHOICE, log entry 21: it does, and a capture without intervals is one empty
sequence. -/
def captureSplit (use : GapUse) : List Nat → List (List Pulse)
  | [] => [[]]
  | d :: ds =>
    match captureSplit use ds with
    | [] => [asElement d]
    | current :: later =>
      if Const.captureGap < d then
        match use with
        | .dropped => [] :: current :: later
        | .endsEarlier => asElement d :: current :: later
        | .beginsLater => [] :: (asElement d ++ current) :: later
      else (asElement d ++ current) :: later

/-- The capture ingestion: from edge timestamps to the pulse sequences offered to the decoders (R176). The spec does not say whether
the first edge must be a rising one (N8). DESIGN CHOICE, log entry 22: a timestamp carries no direction, and the first interval
becomes element 0 whatever its edge is; that a sequence starts with a mark is the caller's duty (R175). -/
def captureIngest (use : GapUse) (timestamps : List Nat) : List (List Pulse) :=
  captureSplit use (deltas timestamps)

end Sys2Proof.Machine
end

