-- ==== Sys2Proof/Config.lean ====
section
/-! DEFINITION. What an implementation fixes and the spec leaves OPEN: the three sizes of R9. No operation depends on
them; claims about the widths of records take them as an argument. The spec leaves no computed value open, so there is no
free value. -/

namespace Sys2Proof.Config

/-- The parameters of R9: operand port width, pulse capacity, bit capacity. -/
structure Params where
  opw : Nat
  maxPulses : Nat
  maxBits : Nat
  deriving DecidableEq, Repr

/-- The bounds R9 puts on the parameters. -/
def Params.legal (p : Params) : Bool :=
  decide (17 ≤ p.opw) && decide (67 ≤ p.maxPulses) && decide (2 * p.maxBits ≤ p.maxPulses)
    && decide (8 ≤ p.maxBits)

/-- The default values of R9. -/
def defaults : Params := { opw := 32, maxPulses := 128, maxBits := 32 }

end Sys2Proof.Config
end

