-- ==== Sys2Proof/Safety.lean ====
section
/-! DEFINITION. What counts as a safe step and a legal state, in the terms claims use: no fault, records within the widths
of R21, R22 and R44, results within the ranges of R41, R114 and R136. -/

namespace Sys2Proof.Safety

open Sys2Proof.Machine

/-- The request fits the ports of R21 for the parameters `p`: a request that can be presented (R9, U11). -/
def presentable (p : Config.Params) (r : Request) : Bool :=
  decide (r.command < 2 ^ p.opw) && decide (r.device < 2 ^ p.opw) && decide (r.ext < 2 ^ p.opw)
    && decide (r.address < 2 ^ p.opw) && decide (r.value < 2 ^ p.opw) && decide (r.width < 2 ^ p.opw)
    && decide (r.width ≤ p.maxBits)
    && decide (r.bits.length ≤ p.maxBits) && decide (r.P.length ≤ p.maxPulses)

/-- The response fits the record of R22 for the parameters `p`: `m <= MAX_PULSES` (R44), `value` of `MAX_BITS` bits. -/
def fits (p : Config.Params) : Response → Bool
  | .empty => true
  | .error _ => true
  | .ok (.pulses Q) => decide (Q.length ≤ p.maxPulses)
  | .ok (.sirc2 _ _) => true
  | .ok (.sirc3 _ _ _) => true
  | .ok (.necCmd _ _) => true
  | .ok .necRpt => true
  | .ok (.bit _) => true
  | .ok (.value v) => decide (v < 2 ^ p.maxBits)

/-- The response is within the ranges the spec states: durations of at most 9200 (R41); SIRC commands of 7 bits, and devices
of 5 bits beside an extended device (R114). -/
def inRange : Response → Bool
  | .empty => true
  | .error _ => true
  | .ok (.pulses Q) => Q.all (fun v => decide (v.toNat ≤ 9200))
  | .ok (.sirc2 command _) => decide (command.toNat < 128)
  | .ok (.sirc3 command device _) => decide (command.toNat < 128) && decide (device.toNat < 32)
  | .ok (.necCmd _ _) => true
  | .ok .necRpt => true
  | .ok (.bit _) => true
  | .ok (.value _) => true

/-- The invariant: a presentable request, and a response that fits its record and is within range. -/
def LegalState (p : Config.Params) (s : State) : Prop :=
  presentable p s.req = true ∧ fits p s.rsp = true ∧ inRange s.rsp = true

/-- The operation ends: a next state, neither a fault nor a refusal. -/
def Completes (o : Host.Outcome State Fault Refusal) : Prop :=
  ∃ t, o = .next t

/-- No fault: no read leaves its sequence (R45). -/
def NoFault (o : Host.Outcome State Fault Refusal) : Prop :=
  ∀ f, o ≠ .fault f

/-- The duration at index `i` of a sequence, for claims; they use it inside the sequence only. -/
def dur (P : List Pulse) (i : Nat) : Nat :=
  (P.getD i 0).toNat

/-- The two requests agree in the operation select and in every field R21 lists for that operation; `ext` counts only when
an extended device is present. -/
def sameOperands (a b : Request) : Prop :=
  a.op = b.op
    ∧ (a.op = 0 → a.bits = b.bits)
    ∧ (a.op = 1 ∨ a.op = 2 → a.value = b.value ∧ a.width = b.width)
    ∧ (a.op = 3 → a.mark = b.mark ∧ a.space = b.space)
    ∧ (a.op = 4 → a.command = b.command ∧ a.device = b.device ∧ a.extPresent = b.extPresent
        ∧ (a.extPresent = true → a.ext = b.ext) ∧ a.force8 = b.force8)
    ∧ (a.op = 5 ∨ a.op = 7 → a.P = b.P)
    ∧ (a.op = 6 → a.address = b.address ∧ a.command = b.command)

end Sys2Proof.Safety
end

