-- ==== Sys2Proof/Certificates/Slice0/Obligations.lean ====
section
/-! DEFINITION. The statements for the provers. Every one is about the block as spec/ describes it; a docstring names the rule
or the section a statement formalises, and says so where a clause rests on a decision the spec marks as its own (D<n> of
92_eei_decisions.md) or on a choice of this model (log entry <n> of notes/assumptions). -/

open Sys2Proof Sys2Proof.Machine Sys2Proof.Safety

/-! ## The machine -/

/-- R60. With a request pending whose select decodes to an operation, `step` is `exec` of it and nothing around it. With
none pending nothing happens: that clause is the model's choice (log entry 3). -/
def Obligations.StepRunsTheDecodedOperation : Prop :=
  ∀ (s : State) (i : Instr),
    (s.pending = true → decode (.request s.req.op) = .ok i → step s = exec i s)
    ∧ (s.pending = false → step s = .next s)

/-- R60, R63 to R66, R68, R75. Codes written out from the spec: the nine selects of R60, the frame words of the vectors V6,
V25, V30, V32, V20, and the symbols. -/
def Obligations.WordsOfTheSpecDecodeToTheirRows : Prop :=
  decode (.request 0b0000) = .ok .b2v ∧ decode (.request 0b0001) = .ok .v2pSirc
  ∧ decode (.request 0b0010) = .ok .v2pNec ∧ decode (.request 0b0011) = .ok .classify
  ∧ decode (.request 0b0100) = .ok .encSirc ∧ decode (.request 0b0101) = .ok .decSirc
  ∧ decode (.request 0b0110) = .ok .encNec ∧ decode (.request 0b0111) = .ok .decNec
  ∧ decode (.request 0b1000) = .ok .necRepeat
  ∧ decode (.sircFrame 12 0b00001_0010010) = .ok (.sirc12 18 1)
  ∧ decode (.sircFrame 15 0b10010111_0010101) = .ok (.sirc15 21 151)
  ∧ decode (.sircFrame 20 0b01001010_00001_0010010) = .ok (.sirc20 18 1 74)
  ∧ decode (.sircFrame 23 0b00000111_00000011_0000101) = .ok (.sirc23 5 3 7)
  ∧ decode (.necFrame 32 0xCB340102) = .ok (.nec32 0x02 0x01 0x34 0xCB)
  ∧ decode (.sircSymbol true) = .ok .sircBit1 ∧ decode (.necSymbol false) = .ok .necBit0

/-- R60, R62 to R66, R68, R75. Decoding the code of a well-formed instruction gives the instruction back, for every operand
value: no bit of an encoding is dropped. -/
def Obligations.DecodeOfEncodeIsTheInstruction : Prop :=
  ∀ i : Instr, i.wf = true → decode (encode i) = .ok i

/-- R60, R62 to R66, R68, R75. The other direction: what decodes is well formed, and its code is the one it was decoded
from, so no two codes mean one instruction. -/
def Obligations.EncodeOfDecodeIsTheCode : Prop :=
  ∀ (c : Code) (i : Instr), decode c = .ok i → i.wf = true ∧ encode i = c

/-- R63, R64, R65. Each SIRC frame word fits its number of bits and is `command | device << 7 | ext << 12`; its bits in the order
they are sent, `W[0]` first, are the command's seven bits, then the device's, then the extended device's, each least significant
bit first; and ENC_SIRC sends the three formats in 25, 31 and 41 pulses, the mark of bit `W[k]` being pulse `2 + 2k`. Where a mark
stands in the emitted frame, and its number of pulses, rest on the frame's index map R56 and on the spec's decision D6 (R102; log
entry 9). -/
def Obligations.SircFrameWordsSendTheirFieldsInOrder : Prop :=
  (∀ (c : BitVec 7) (d : BitVec 5), ∃ W, encode (.sirc12 c d) = .sircFrame 12 W ∧ W < 2 ^ 12
      ∧ W = c.toNat + d.toNat * 2 ^ 7
      ∧ bitsOf W 12 = bitsOf c.toNat 7 ++ bitsOf d.toNat 5
      ∧ ∀ s : State, s.req.command = c.toNat → s.req.device = d.toNat → s.req.extPresent = false →
          s.req.force8 = false →
          ∃ Q, exec .encSirc s = .next { s with rsp := .ok (.pulses Q), pending := false } ∧ Q.length = 25
            ∧ ∀ k < 12, Q[2 + 2 * k]? = some (if W.testBit k then 1200 else 600))
  ∧ (∀ (c : BitVec 7) (d : BitVec 8), ∃ W, encode (.sirc15 c d) = .sircFrame 15 W ∧ W < 2 ^ 15
      ∧ W = c.toNat + d.toNat * 2 ^ 7
      ∧ bitsOf W 15 = bitsOf c.toNat 7 ++ bitsOf d.toNat 8
      ∧ ∀ s : State, s.req.command = c.toNat → s.req.device = d.toNat → s.req.extPresent = false →
          2 ^ 5 ≤ s.req.device ∨ s.req.force8 = true →
          ∃ Q, exec .encSirc s = .next { s with rsp := .ok (.pulses Q), pending := false } ∧ Q.length = 31
            ∧ ∀ k < 15, Q[2 + 2 * k]? = some (if W.testBit k then 1200 else 600))
  ∧ (∀ (c : BitVec 7) (d : BitVec 5) (e : BitVec 8), ∃ W, encode (.sirc20 c d e) = .sircFrame 20 W
      ∧ W < 2 ^ 20 ∧ W = c.toNat + d.toNat * 2 ^ 7 + e.toNat * 2 ^ 12
      ∧ bitsOf W 20 = bitsOf c.toNat 7 ++ bitsOf d.toNat 5 ++ bitsOf e.toNat 8
      ∧ ∀ s : State, s.req.command = c.toNat → s.req.device = d.toNat → s.req.extPresent = true →
          s.req.ext = e.toNat → s.req.force8 = false →
          ∃ Q, exec .encSirc s = .next { s with rsp := .ok (.pulses Q), pending := false } ∧ Q.length = 41
            ∧ ∀ k < 20, Q[2 + 2 * k]? = some (if W.testBit k then 1200 else 600))

/-- R56, R62, R75. The four SIRC frame rows (SIRC12, SIRC15, SIRC20, SIRC23_NONSTANDARD) complete with the index map of a
SIRC frame for their word `W` of `nb` bits: 2400, 600, then at `2 + 2k` the mark of bit `k`, 1200 or 600, and 600 between.
The header space and the missing last space are the spec's decision D6, the 23-bit frame its decision D9. That a frame row
runs by emitting its frame is this model's choice (log entry 7). It holds for a
SIRC23_NONSTANDARD row with a device over 31 too, which R75 gives no frame: that such an ill-formed row emits its word's frame is
this model's choice (log entry 17). -/
def Obligations.SircFrameRowsEmitTheirIndexMap : Prop :=
  ∀ (i : Instr) (nb W : Nat) (s : State), encode i = .sircFrame nb W →
    ∃ Q, exec i s = .next { s with rsp := .ok (.pulses Q), pending := false }
      ∧ Q.length = 2 * nb + 1 ∧ Q[0]? = some 2400 ∧ Q[1]? = some 600
      ∧ (∀ k < nb, Q[2 + 2 * k]? = some (if W.testBit k then 1200 else 600))
      ∧ (∀ k < nb - 1, Q[3 + 2 * k]? = some 600)

/-- R56, R66. The frame row NEC32 completes with the index map of a NEC frame: 9000, 4500, the 32 pairs of the bytes `l`,
`h`, `c`, `i`, each least significant bit first, and the trailing mark. That a frame row runs by emitting its frame is this
model's choice (log entry 7). It holds for every `i`, also
one that is not the complement of `c`, which R66 gives no frame: that such an ill-formed row emits its word's frame is this
model's choice (log entry 17). -/
def Obligations.NecFrameRowEmitsItsIndexMap : Prop :=
  ∀ (l h c i : Byte) (s : State), ∃ Q,
    exec (.nec32 l h c i) s = .next { s with rsp := .ok (.pulses Q), pending := false }
      ∧ Q.length = 67 ∧ Q[0]? = some 9000 ∧ Q[1]? = some 4500 ∧ Q[66]? = some 560
      ∧ (∀ k < 32, Q[2 + 2 * k]? = some 560)
      ∧ (∀ j < 8, Q[3 + 2 * j]? = some (if l.getLsbD j then 1690 else 560)
          ∧ Q[3 + 2 * (8 + j)]? = some (if h.getLsbD j then 1690 else 560)
          ∧ Q[3 + 2 * (16 + j)]? = some (if c.getLsbD j then 1690 else 560)
          ∧ Q[3 + 2 * (24 + j)]? = some (if i.getLsbD j then 1690 else 560))

/-- R68. The symbol code. One bit sent by V2P_SIRC is 1200 or 600 and then 600; one bit sent by V2P_NEC is 560 and then 1690 or
560. Back, in both protocols, a pair is a 1 if and only if `second > first * 1.75`. -/
def Obligations.OneBitIsOneSymbol : Prop :=
  ∀ (s : State) (bit : Bool), s.req.width = 1 → s.req.value % 2 = bit.toNat →
    exec .v2pSirc s = .next { s with rsp := .ok (.pulses [if bit then 1200 else 600, 600]), pending := false }
    ∧ exec .v2pNec s = .next { s with rsp := .ok (.pulses [560, if bit then 1690 else 560]), pending := false }
    ∧ (s.req.mark = 600 → s.req.space = (if bit then 1200 else 600) →
        exec .classify s = .next { s with rsp := .ok (.bit bit), pending := false })
    ∧ (s.req.mark = 560 → s.req.space = (if bit then 1690 else 560) →
        exec .classify s = .next { s with rsp := .ok (.bit bit), pending := false })
    ∧ exec .classify s = .next { s with
        rsp := .ok (.bit (decide (4 * s.req.space.toNat > 7 * s.req.mark.toNat))), pending := false }

/-- R68. The four symbol rows complete with their (mark, space) pair. That a symbol row runs by emitting its pair is this model's
choice (log entry 7). -/
def Obligations.SymbolRowsEmitTheirPairs : Prop :=
  ∀ s : State,
    exec .sircBit0 s = .next { s with rsp := .ok (.pulses [600, 600]), pending := false }
    ∧ exec .sircBit1 s = .next { s with rsp := .ok (.pulses [1200, 600]), pending := false }
    ∧ exec .necBit0 s = .next { s with rsp := .ok (.pulses [560, 560]), pending := false }
    ∧ exec .necBit1 s = .next { s with rsp := .ok (.pulses [560, 1690]), pending := false }

/-- R74, decision D14. A request with a select from 9 to 15 is refused, by name. -/
def Obligations.ReservedSelectsAreRefused : Prop :=
  ∀ s : State, s.pending = true → 9 ≤ s.req.op.toNat → step s = .refused (.reservedOp s.req.op)

/-- R7, R15, R17. Every pending request with a select from 0 to 8, in every state, is answered in one step: a valid response
that is a result or an error, with REQ untouched. -/
def Obligations.EveryPresentedRequestIsAnswered : Prop :=
  ∀ s : State, s.pending = true → s.req.op.toNat < 9 →
    ∃ r : Response, ((∃ v, r = .ok v) ∨ (∃ k, r = .error k)) ∧ step s = .next { s with rsp := r, pending := false }

/-- R45. No operation ever reads outside its sequence: no instruction and no step faults, in any state. -/
def Obligations.NoReadLeavesItsSequence : Prop :=
  (∀ s, NoFault (step s)) ∧ ∀ i s, NoFault (exec i s)

/-- R55, R30. The frame of every instruction (all eighteen constructors): it writes the response, and nothing else of the
state changes but that the request no longer waits. No element of `REQ.P` and no other field of REQ changes. -/
def Obligations.AnInstructionWritesOnlyTheResponse : Prop :=
  ∀ (i : Instr) (s t : State), exec i s = .next t →
    t.req = s.req ∧ t.pending = false ∧ t = { s with rsp := t.rsp, pending := false }

/-- R20. The response to a request is a function of that request alone: whatever state two copies of the block are in, the
same request takes them to the same outcome. -/
def Obligations.ResponseIsAFunctionOfTheRequest : Prop :=
  ∀ (r : Request) (s1 s2 : State), step (s1.present r) = step (s2.present r)

/-- R57. Two requests with equal fields get equal responses, and any interleaving `zs` of the requests of any callers gives
each caller `c` the responses it gets when its own requests are served alone, from any state. That the
callers' requests are served one after another on one copy is log entry 13 (decision D15). -/
def Obligations.InterleavedCallersGetTheirOwnResponses : Prop :=
  (∀ (r1 r2 : Request) (s1 s2 t1 t2 : State), r1 = r2 → step (s1.present r1) = .next t1 →
      step (s2.present r2) = .next t2 → t1.rsp = t2.rsp)
  ∧ ∀ (zs : List (Nat × Request)) (s u : State) (rsps : List Response),
    serve s (zs.map Prod.snd) = .next (u, rsps) →
    ∀ (c : Nat) (s0 : State), ∃ u0,
      serve s0 ((zs.filter fun z => z.1 = c).map Prod.snd)
        = .next (u0, ((zs.zip rsps).filter fun y => y.1.1 = c).map Prod.snd)

/-- R21, R61, decision D2. An operation is unaffected by every field R21 does not list for it. -/
def Obligations.UnlistedFieldsDoNotMatter : Prop :=
  ∀ (a b : Request) (s t : State), sameOperands a b → step (s.present a) = .next t →
    ∃ u, step (s.present b) = .next u ∧ u.rsp = t.rsp

/-- R31, R170, decision D13. After reset `RSP.valid` is 0; a reset leaves REQ as it is and abandons the request in progress;
and the first request after a reset is served as in any other state. -/
def Obligations.ResetInvalidatesTheResponseOnly : Prop :=
  State.reset.rsp.valid = false ∧ State.reset.pending = false
  ∧ ∀ s : State, s.resetEvent.rsp.valid = false ∧ s.resetEvent.pending = false ∧ s.resetEvent.req = s.req
    ∧ ∀ r, step (s.resetEvent.present r) = step (s.present r)

/-- R9, R21, R22, R44. The reset state meets the invariant, for all parameters. That REQ is zero there is the model's choice
(log entry 5). -/
def Obligations.ResetMeetsTheInvariant : Prop :=
  ∀ p : Config.Params, LegalState p State.reset

/-- R9, R22, R41, R44, R114. For all parameters within the bounds of R9, every step and every instruction keeps the
invariant: a presentable request stays, the response fits its record (`m <= MAX_PULSES`, `value` of `MAX_BITS` bits), every
duration is at most 9200, a SIRC command has 7 bits, and a device beside an extended device has 5. -/
def Obligations.EveryStepKeepsTheInvariant : Prop :=
  ∀ p : Config.Params, p.legal = true → ∀ s t : State, LegalState p s →
    (step s = .next t → LegalState p t) ∧ ∀ i, exec i s = .next t → LegalState p t

/-- R22, R31. `RSP.valid` is 1 from the first operation that ends, and only a reset makes it 0 again. -/
def Obligations.ValidRisesWithTheFirstResponse : Prop :=
  ∀ s t : State, step s = .next t → t.rsp.valid = (s.pending || s.rsp.valid)

/-- R146. After an error the next request may be presented at once and is served as if the failed one had never been made:
the same outcome, whole state and all. -/
def Obligations.AnErrorLeavesNothingBehind : Prop :=
  ∀ (s t : State) (r1 : Request) (k : ErrorKind), step (s.present r1) = .next t → t.rsp = .error k →
    ∀ r2 : Request, step (t.present r2) = step (s.present r2)

/-- R140. Who raises what: an encode error comes from an encoder only and a decode error from a decoder only, InvalidHeader
from DEC_SIRC alone, InvalidAgcMark from DEC_NEC alone; no other row of the table raises anything. -/
def Obligations.ErrorTaxonomiesAreDisjoint : Prop :=
  ∀ (i : Instr) (s t : State) (k : ErrorKind), exec i s = .next t → t.rsp = .error k →
    ((i = .encSirc ∨ i = .encNec)
      ∧ k ∈ [ErrorKind.invalidCommand, .invalidDevice, .invalidDeviceId, .invalidExtendedDevice, .invalidAddress])
    ∨ ((i = .decSirc ∨ i = .decNec)
      ∧ k ∈ [ErrorKind.invalidPulseCount, .invalidHeader, .invalidAgcMark, .invalidAgcSpace, .checksumMismatch]
      ∧ (k = .invalidHeader → i = .decSirc) ∧ (k = .invalidAgcMark → i = .decNec))

/-- R141, decision D4. The status codes: 0 for OK, 1 to 10 for the ten kinds, no two alike; none while nothing is valid. R31 says only
that the status must not be read then: that there is none is the model's sum type (log entry 4). -/
def Obligations.StatusCodesAreOneToTen : Prop :=
  (∀ v, (Response.ok v).status = some 0) ∧ Response.empty.status = none
  ∧ (∀ k : ErrorKind, (Response.error k).status = some k.code ∧ 1 ≤ k.code.toNat ∧ k.code.toNat ≤ 10)
  ∧ ∀ k k' : ErrorKind, k.code = k'.code → k = k'

/-- R41. The largest value the block ever emits is 9200, the largest an encoder emits is 9000, and both are emitted. -/
def Obligations.EmittedDurationsAreBounded : Prop :=
  (∀ (i : Instr) (s t : State) (Q : List Pulse), exec i s = .next t → t.rsp = .ok (.pulses Q) →
    ∀ v ∈ Q, v.toNat ≤ 9200 ∧ (i = .encSirc ∨ i = .encNec → v.toNat ≤ 9000))
  ∧ (∀ s : State, ∃ t Q, exec .necRepeat s = .next t ∧ t.rsp = .ok (.pulses Q) ∧ (9200 : Pulse) ∈ Q)
  ∧ ∃ (s t : State) (Q : List Pulse), exec .encNec s = .next t ∧ t.rsp = .ok (.pulses Q) ∧ (9000 : Pulse) ∈ Q

/-! ## Primitives -/

/-- R90. B2V completes with the sum of `bit[i] * 2^i`; the empty sequence gives 0; `w` bits give a value below `2^w`; and high
zero bits do not change it. -/
def Obligations.B2vIsTheLsbFirstSum : Prop :=
  ∀ s : State, ∃ v,
    exec .b2v s = .next { s with rsp := .ok (.value v), pending := false }
    ∧ v = ((List.range s.req.bits.length).map fun i => (s.req.bits.getD i false).toNat * 2 ^ i).sum
    ∧ (s.req.bits = [] → v = 0) ∧ v < 2 ^ s.req.bits.length
    ∧ ∀ n : Nat, exec .b2v { s with req := { s.req with bits := s.req.bits ++ List.replicate n false } }
        = .next { s with
            req := { s.req with bits := s.req.bits ++ List.replicate n false }
            rsp := .ok (.value v), pending := false }

/-- R14, R90 (its clause marked derived). B2V inverts `bits_of` up to the width. -/
def Obligations.B2vInvertsBitsOf : Prop :=
  ∀ (s : State) (v w : Nat), s.req.bits = bitsOf v w →
    exec .b2v s = .next { s with rsp := .ok (.value (v % 2 ^ w)), pending := false }

/-- R91. V2P_SIRC completes with one pair for each of the `width` low bits, least significant first: 1200 or 600, then
600. -/
def Obligations.V2pSircEmitsOnePairPerBit : Prop :=
  ∀ s : State, ∃ Q, exec .v2pSirc s = .next { s with rsp := .ok (.pulses Q), pending := false }
    ∧ Q.length = 2 * s.req.width
    ∧ ∀ k < s.req.width, Q[2 * k]? = some (if s.req.value.testBit k then 1200 else 600)
        ∧ Q[2 * k + 1]? = some 600

/-- R92. V2P_NEC completes with one pair for each of the `width` low bits, least significant first: 560, then 1690 or
560. -/
def Obligations.V2pNecEmitsOnePairPerBit : Prop :=
  ∀ s : State, ∃ Q, exec .v2pNec s = .next { s with rsp := .ok (.pulses Q), pending := false }
    ∧ Q.length = 2 * s.req.width
    ∧ ∀ k < s.req.width, Q[2 * k]? = some 560
        ∧ Q[2 * k + 1]? = some (if s.req.value.testBit k then 1690 else 560)

/-- R93. CLASSIFY completes, for any two durations, with 1 exactly when `space > mark * 1.75`, compared exactly over the
rationals. -/
def Obligations.ClassifyIsTheExactRatioTest : Prop :=
  ∀ s : State, ∃ b, exec .classify s = .next { s with rsp := .ok (.bit b), pending := false }
    ∧ (b = true ↔ (s.req.space.toNat : ℚ) > (s.req.mark.toNat : ℚ) * (7 / 4))

/-- R94. The thresholds at the nominal first elements: 1051 after 600, 981 after 560. -/
def Obligations.ClassifyThresholdsAtNominalDurations : Prop :=
  ∀ (s t : State) (b : Bool), exec .classify s = .next t → t.rsp = .ok (.bit b) →
    (s.req.mark = 600 → (b = true ↔ 1051 ≤ s.req.space.toNat))
    ∧ (s.req.mark = 560 → (b = true ↔ 981 ≤ s.req.space.toNat))

/-! ## SIRC encoder -/

/-- R101, R142, R145, decision D8. The errors of ENC_SIRC in their priority. -/
def Obligations.EncSircErrorsInOrder : Prop :=
  ∀ s : State,
    (2 ^ 12 ≤ s.req.command → exec .encSirc s = .next { s with rsp := .error .invalidCommand, pending := false })
    ∧ (s.req.command < 2 ^ 12 → s.req.extPresent = true → 2 ^ 8 ≤ s.req.ext →
        exec .encSirc s = .next { s with rsp := .error .invalidExtendedDevice, pending := false })
    ∧ (s.req.command < 2 ^ 12 → s.req.extPresent = true → s.req.ext < 2 ^ 8 → 2 ^ 5 ≤ s.req.device →
        exec .encSirc s = .next { s with rsp := .error .invalidDevice, pending := false })
    ∧ (s.req.command < 2 ^ 12 → s.req.extPresent = false → 2 ^ 8 ≤ s.req.device →
        exec .encSirc s = .next { s with rsp := .error .invalidDeviceId, pending := false })

/-- R69, R100, R103, R106(a), R106(b); the frame's shape is the spec's decision D6, the case `force8` with an extended device
its decision D9. An accepted ENC_SIRC request completes with header mark 2400, header space 600, the low seven command bits,
five or eight device bits, eight extended bits if present, marks at even and 600 at odd indices, and no last space. -/
def Obligations.EncSircEmitsTheFrame : Prop :=
  ∀ (s : State) (devw extw : Nat), s.req.command < 2 ^ 12 →
    (s.req.extPresent = true → s.req.ext < 2 ^ 8 ∧ s.req.device < 2 ^ 5) →
    (s.req.extPresent = false → s.req.device < 2 ^ 8) →
    devw = (if 2 ^ 5 ≤ s.req.device ∨ s.req.force8 = true then 8 else 5) →
    extw = (if s.req.extPresent then 8 else 0) →
    ∃ Q, exec .encSirc s = .next { s with rsp := .ok (.pulses Q), pending := false }
      ∧ Q.length = 2 * (7 + devw + extw) + 1 ∧ Q[0]? = some 2400 ∧ Q[1]? = some 600
      ∧ (∀ k < 7, Q[2 + 2 * k]? = some (if s.req.command.testBit k then 1200 else 600))
      ∧ (∀ k < devw, Q[2 + 2 * (7 + k)]? = some (if s.req.device.testBit k then 1200 else 600))
      ∧ (∀ k < extw, Q[2 + 2 * (7 + devw + k)]? = some (if s.req.ext.testBit k then 1200 else 600))
      ∧ ∀ k < 7 + devw + extw - 1, Q[3 + 2 * k]? = some 600

/-- R63 to R65, R70, R75, R103. An accepted ENC_SIRC request does exactly what the frame row its operands choose does: SIRC-12,
SIRC-15, SIRC-20, or the non-standard 23-bit frame (decision D9). That a frame row runs by emitting its frame is this model's
choice (log entry 7). -/
def Obligations.EncSircIsTheFrameRowItsOperandsChoose : Prop :=
  ∀ s : State, s.req.command < 2 ^ 12 →
    (s.req.extPresent = false → s.req.device < 2 ^ 5 → s.req.force8 = false →
      exec .encSirc s = exec (.sirc12 (BitVec.ofNat 7 s.req.command) (BitVec.ofNat 5 s.req.device)) s)
    ∧ (s.req.extPresent = false → s.req.device < 2 ^ 8 → 2 ^ 5 ≤ s.req.device ∨ s.req.force8 = true →
      exec .encSirc s = exec (.sirc15 (BitVec.ofNat 7 s.req.command) (BitVec.ofNat 8 s.req.device)) s)
    ∧ (s.req.extPresent = true → s.req.ext < 2 ^ 8 → s.req.device < 2 ^ 5 → s.req.force8 = false →
      exec .encSirc s = exec (.sirc20 (BitVec.ofNat 7 s.req.command) (BitVec.ofNat 5 s.req.device)
        (BitVec.ofNat 8 s.req.ext)) s)
    ∧ (s.req.extPresent = true → s.req.ext < 2 ^ 8 → s.req.device < 2 ^ 5 → s.req.force8 = true →
      (Instr.sirc23 (BitVec.ofNat 7 s.req.command) (BitVec.ofNat 8 s.req.device) (BitVec.ofNat 8 s.req.ext)).wf = true
      ∧ exec .encSirc s = exec (.sirc23 (BitVec.ofNat 7 s.req.command) (BitVec.ofNat 8 s.req.device)
        (BitVec.ofNat 8 s.req.ext)) s)

/-- R72, R105. A command below `2^12` is never an InvalidCommand, and accepted commands that differ only in bits 7 to 11 give
the same response. -/
def Obligations.EncSircSendsSevenCommandBits : Prop :=
  ∀ (s : State) (command : Nat), s.req.command < 2 ^ 12 → command < 2 ^ 12 →
    command % 2 ^ 7 = s.req.command % 2 ^ 7 →
    ∃ r, r ≠ .error .invalidCommand
      ∧ exec .encSirc s = .next { s with rsp := r, pending := false }
      ∧ exec .encSirc { s with req := { s.req with command := command } }
          = .next { s with req := { s.req with command := command }, rsp := r, pending := false }

/-- R75, R104, decision D9, and D6 for the number of pulses. `force8` with an extended device gives a 47-pulse frame, which
DEC_SIRC refuses. -/
def Obligations.Force8WithExtendedCannotBeReadBack : Prop :=
  ∀ s : State, s.req.command < 2 ^ 12 → s.req.extPresent = true → s.req.ext < 2 ^ 8 → s.req.device < 2 ^ 5 →
    s.req.force8 = true →
    ∃ Q, exec .encSirc s = .next { s with rsp := .ok (.pulses Q), pending := false } ∧ Q.length = 47
      ∧ ∀ d : State, d.req.P = Q →
          exec .decSirc d = .next { d with rsp := .error .invalidPulseCount, pending := false }

/-- R106(e), R183. The elements of a SIRC frame of `nb` data bits, `z` of them 1, sum to `2400 + 1200 * nb + 600 * z`. That the header
space counts and no last space does is the spec's decision D6 (R102; log entry 9). -/
def Obligations.SircFrameDurationsSum : Prop :=
  ∀ (s t : State) (Q : List Pulse) (nb : Nat), exec .encSirc s = .next t → t.rsp = .ok (.pulses Q) →
    Q.length = 2 * nb + 1 →
    (Q.map BitVec.toNat).sum = 2400 + 1200 * nb + 600 * Q.count 1200

/-- R106(c), R106(d), S1. A command and a device without extended device come back from DEC_SIRC as the low seven command bits
and the device, whether the device field has five bits or eight. The frame's shape is the spec's decision D6. -/
def Obligations.SircRoundTrip : Prop :=
  ∀ s : State, s.req.command < 2 ^ 12 → s.req.extPresent = false → s.req.device < 2 ^ 8 →
    ∃ Q, exec .encSirc s = .next { s with rsp := .ok (.pulses Q), pending := false }
      ∧ ∀ d : State, d.req.P = Q →
          exec .decSirc d = .next { d with
            rsp := .ok (.sirc2 (BitVec.ofNat 8 (s.req.command % 2 ^ 7)) (BitVec.ofNat 8 s.req.device))
            pending := false }

/-- R106(c), S2. A command, a device and an extended device come back from DEC_SIRC as the low seven command bits, the device
and the extended device. The frame's shape is the spec's decision D6. -/
def Obligations.SircExtendedRoundTrip : Prop :=
  ∀ s : State, s.req.command < 2 ^ 12 → s.req.extPresent = true → s.req.device < 2 ^ 5 → s.req.ext < 2 ^ 8 →
    s.req.force8 = false →
    ∃ Q, exec .encSirc s = .next { s with rsp := .ok (.pulses Q), pending := false }
      ∧ ∀ d : State, d.req.P = Q →
          exec .decSirc d = .next { d with
            rsp := .ok (.sirc3 (BitVec.ofNat 8 (s.req.command % 2 ^ 7)) (BitVec.ofNat 8 s.req.device)
              (BitVec.ofNat 8 s.req.ext))
            pending := false }

/-! ## SIRC decoder -/

/-- R111, R112, R142, decisions D7 and D8. DEC_SIRC refuses a wrong count before it looks at the header, then a header outside
2200 to 2600. -/
def Obligations.DecSircErrorsInOrder : Prop :=
  ∀ s : State,
    (s.req.P.length ∉ [25, 31, 41] →
      exec .decSirc s = .next { s with rsp := .error .invalidPulseCount, pending := false })
    ∧ (s.req.P.length ∈ [25, 31, 41] → dur s.req.P 0 < 2200 ∨ 2600 < dur s.req.P 0 →
      exec .decSirc s = .next { s with rsp := .error .invalidHeader, pending := false })

/-- R113, R114. With a good count and header DEC_SIRC completes. Bit `k` is 1 exactly when `4 * P[2 + 2k] > 7 * P[1 + 2k]`;
the count alone decides the fields: 25 pulses give a 7-bit command and a 5-bit device, 31 an 8-bit device, 41 a 5-bit device
and an 8-bit extended device, which is returned whatever its value. That 2200 and 2600
are inside the header window is the spec's decision D7 (R12, R112; log entry 9). -/
def Obligations.DecSircSplitsTheFrame : Prop :=
  ∀ s : State, 2200 ≤ dur s.req.P 0 → dur s.req.P 0 ≤ 2600 →
    (s.req.P.length = 25 → ∃ command device : Byte,
      exec .decSirc s = .next { s with rsp := .ok (.sirc2 command device), pending := false }
      ∧ command.toNat < 2 ^ 7 ∧ device.toNat < 2 ^ 5
      ∧ (∀ k < 7, command.getLsbD k = decide (4 * dur s.req.P (2 + 2 * k) > 7 * dur s.req.P (1 + 2 * k)))
      ∧ ∀ k < 5, device.getLsbD k = decide (4 * dur s.req.P (2 + 2 * (7 + k)) > 7 * dur s.req.P (1 + 2 * (7 + k))))
    ∧ (s.req.P.length = 31 → ∃ command device : Byte,
      exec .decSirc s = .next { s with rsp := .ok (.sirc2 command device), pending := false }
      ∧ command.toNat < 2 ^ 7
      ∧ (∀ k < 7, command.getLsbD k = decide (4 * dur s.req.P (2 + 2 * k) > 7 * dur s.req.P (1 + 2 * k)))
      ∧ ∀ k < 8, device.getLsbD k = decide (4 * dur s.req.P (2 + 2 * (7 + k)) > 7 * dur s.req.P (1 + 2 * (7 + k))))
    ∧ (s.req.P.length = 41 → ∃ command device ext : Byte,
      exec .decSirc s = .next { s with rsp := .ok (.sirc3 command device ext), pending := false }
      ∧ command.toNat < 2 ^ 7 ∧ device.toNat < 2 ^ 5
      ∧ (∀ k < 7, command.getLsbD k = decide (4 * dur s.req.P (2 + 2 * k) > 7 * dur s.req.P (1 + 2 * k)))
      ∧ (∀ k < 5, device.getLsbD k
          = decide (4 * dur s.req.P (2 + 2 * (7 + k)) > 7 * dur s.req.P (1 + 2 * (7 + k))))
      ∧ ∀ k < 8, ext.getLsbD k
          = decide (4 * dur s.req.P (2 + 2 * (12 + k)) > 7 * dur s.req.P (1 + 2 * (12 + k))))

/-- R53, R115, decision D18, and D7 for the window's ends. DEC_SIRC judges by ratio alone: two sequences of one length, both with a header in the window, whose
pairs classify alike, get the same response, whatever their durations, the header space among them. -/
def Obligations.DecSircJudgesByRatioAlone : Prop :=
  ∀ (a b t u : State), a.req.P.length = b.req.P.length →
    2200 ≤ dur a.req.P 0 → dur a.req.P 0 ≤ 2600 → 2200 ≤ dur b.req.P 0 → dur b.req.P 0 ≤ 2600 →
    (∀ k < (a.req.P.length - 1) / 2,
      (4 * dur a.req.P (2 + 2 * k) > 7 * dur a.req.P (1 + 2 * k)
        ↔ 4 * dur b.req.P (2 + 2 * k) > 7 * dur b.req.P (1 + 2 * k))) →
    exec .decSirc a = .next t → exec .decSirc b = .next u → t.rsp = u.rsp

/-! ## NEC encoder -/

/-- R121, R124, R142, decision D8. The errors of ENC_NEC in their priority. -/
def Obligations.EncNecErrorsInOrder : Prop :=
  ∀ s : State,
    (2 ^ 8 ≤ s.req.command → exec .encNec s = .next { s with rsp := .error .invalidCommand, pending := false })
    ∧ (s.req.command < 2 ^ 8 → 2 ^ 16 ≤ s.req.address →
        exec .encNec s = .next { s with rsp := .error .invalidAddress, pending := false })
    ∧ (s.req.command < 2 ^ 8 → 2 ^ 8 ≤ s.req.address → s.req.address < 2 ^ 16 →
        s.req.address % 256 = 255 - s.req.address / 256 →
        exec .encNec s = .next { s with rsp := .error .invalidAddress, pending := false })

/-- R56, R69, R120, R123, R126(a). An accepted ENC_NEC request completes with the 67 pulses whose four bytes are: low address
byte; the complement of the address in legacy mode, else the high address byte; the command; its complement. -/
def Obligations.EncNecEmitsTheFrame : Prop :=
  ∀ (s : State) (high : Nat), s.req.command < 2 ^ 8 → s.req.address < 2 ^ 16 →
    (2 ^ 8 ≤ s.req.address → s.req.address % 256 ≠ 255 - s.req.address / 256) →
    high = (if s.req.address < 2 ^ 8 then 255 - s.req.address else s.req.address / 256) →
    ∃ Q, exec .encNec s = .next { s with rsp := .ok (.pulses Q), pending := false }
      ∧ Q.length = 67 ∧ Q[0]? = some 9000 ∧ Q[1]? = some 4500 ∧ Q[66]? = some 560
      ∧ (∀ k < 32, Q[2 + 2 * k]? = some 560)
      ∧ ∀ j < 8, Q[3 + 2 * j]? = some (if (s.req.address % 256).testBit j then 1690 else 560)
          ∧ Q[3 + 2 * (8 + j)]? = some (if high.testBit j then 1690 else 560)
          ∧ Q[3 + 2 * (16 + j)]? = some (if s.req.command.testBit j then 1690 else 560)
          ∧ Q[3 + 2 * (24 + j)]? = some (if s.req.command.testBit j then 560 else 1690)

/-- R66. An accepted ENC_NEC request does exactly what the row NEC32 does for the four bytes R66 gives on encode, and that row's
frame word is `address_low | (address_high << 8) | (command << 16) | (command_inverted << 24)`. That a frame row runs by
emitting its frame is this model's choice (log entry 7). -/
def Obligations.EncNecIsTheFrameRowOfItsBytes : Prop :=
  ∀ (s : State) (l h c : Byte), s.req.command < 2 ^ 8 → s.req.address < 2 ^ 16 →
    (2 ^ 8 ≤ s.req.address → s.req.address % 256 ≠ 255 - s.req.address / 256) →
    l = BitVec.ofNat 8 s.req.address →
    h = (if s.req.address < 2 ^ 8 then ~~~l else BitVec.ofNat 8 (s.req.address >>> 8)) →
    c = BitVec.ofNat 8 s.req.command →
    exec .encNec s = exec (.nec32 l h c (~~~c)) s ∧ (Instr.nec32 l h c (~~~c)).wf = true
    ∧ encode (.nec32 l h c (~~~c))
        = .necFrame 32 (l.toNat + h.toNat * 2 ^ 8 + c.toNat * 2 ^ 16 + (~~~c).toNat * 2 ^ 24)

/-- R124. In 16-bit mode a request is refused with InvalidAddress exactly when the low byte is the complement of the high byte;
the condition is symmetric; and a legacy address with a good command always succeeds. -/
def Obligations.AmbiguousNecAddressesAreRefused : Prop :=
  (∀ s : State, s.req.command < 2 ^ 8 → 2 ^ 8 ≤ s.req.address → s.req.address < 2 ^ 16 →
    (exec .encNec s = .next { s with rsp := .error .invalidAddress, pending := false }
      ↔ s.req.address &&& 0xFF = 255 - (s.req.address >>> 8)))
  ∧ (∀ low high : Nat, low < 256 → high < 256 → (low = comp8 high ↔ high = comp8 low))
  ∧ ∀ s : State, s.req.command < 2 ^ 8 → s.req.address < 2 ^ 8 →
      ∃ Q, exec .encNec s = .next { s with rsp := .ok (.pulses Q), pending := false }

/-- R73 (its count marked derived). The addresses ENC_NEC refuses for ambiguity are the 255 numbers `h * 256 + (255 - h)` with `h`
from 1 to 255. -/
def Obligations.ReservedNecAddressesAre255 : Prop :=
  ∃ reserved : List Nat, reserved = (List.range 255).map (fun n => (n + 1) * 256 + (255 - (n + 1)))
    ∧ reserved.Nodup
    ∧ ∀ s : State, s.req.command < 2 ^ 8 → s.req.address < 2 ^ 16 →
      (exec .encNec s = .next { s with rsp := .error .invalidAddress, pending := false }
        ↔ s.req.address ∈ reserved)

/-- R125, R126(e), R183. The elements of a NEC frame sum to `49,900 + 1,130 * z` with `z` one-bits; the command byte and its
complement hold exactly eight; and a legacy frame has 16, so it sums to 67,980. -/
def Obligations.NecFrameDurationsSum : Prop :=
  ∀ (s t : State) (Q : List Pulse), exec .encNec s = .next t → t.rsp = .ok (.pulses Q) →
    (Q.map BitVec.toNat).sum = 49900 + 1130 * Q.count 1690
    ∧ (Q.drop 34).count 1690 = 8
    ∧ (s.req.address < 2 ^ 8 → Q.count 1690 = 16 ∧ (Q.map BitVec.toNat).sum = 67980)

/-- R126(b), R126(c), S3, conflict C3. Every accepted address and command come back from DEC_NEC. -/
def Obligations.NecRoundTrip : Prop :=
  ∀ s : State, s.req.command < 2 ^ 8 → s.req.address < 2 ^ 16 →
    (2 ^ 8 ≤ s.req.address → s.req.address % 256 ≠ 255 - s.req.address / 256) →
    ∃ Q, exec .encNec s = .next { s with rsp := .ok (.pulses Q), pending := false }
      ∧ ∀ d : State, d.req.P = Q →
          exec .decNec d = .next { d with
            rsp := .ok (.necCmd (BitVec.ofNat 16 s.req.address) (BitVec.ofNat 8 s.req.command))
            pending := false }

/-- R126(f), S4, V36. Flipping any single bit of the command or the inverted-command field of a frame ENC_NEC makes (swapping its
space between 560 and 1690) makes DEC_NEC fail with ChecksumMismatch. -/
def Obligations.NecChecksumCatchesOneBit : Prop :=
  ∀ (s t : State) (Q : List Pulse), exec .encNec s = .next t → t.rsp = .ok (.pulses Q) →
    ∀ (k : Nat) (v : Pulse), 16 ≤ k → k < 32 → (v = 560 ∨ v = 1690) → Q[3 + 2 * k]? ≠ some v →
      ∀ d : State, d.req.P = Q.set (3 + 2 * k) v →
        exec .decNec d = .next { d with rsp := .error .checksumMismatch, pending := false }

/-- R122. NEC_REPEAT completes with its constant, the same at every request. -/
def Obligations.NecRepeatIsItsConstant : Prop :=
  ∀ s : State, exec .necRepeat s = .next { s with rsp := .ok (.pulses [9200, 2250, 560]), pending := false }

/-- R122 (its clause marked derived), V40. The constant offered to the decoders: the repeat signal from DEC_NEC,
InvalidPulseCount from DEC_SIRC. -/
def Obligations.NecRepeatDecodesAsTheRepeatSignal : Prop :=
  ∀ (s t d : State) (Q : List Pulse), exec .necRepeat s = .next t → t.rsp = .ok (.pulses Q) → d.req.P = Q →
    exec .decNec d = .next { d with rsp := .ok .necRpt, pending := false }
    ∧ exec .decSirc d = .next { d with rsp := .error .invalidPulseCount, pending := false }

/-! ## NEC decoder -/

/-- R132, R133, R142, decisions D7, D8 and D10. DEC_NEC's checks in their order: count, AGC mark, (repeat), AGC space, and the
three-pulse sequence that is no repeat, a ChecksumMismatch. -/
def Obligations.DecNecErrorsInOrder : Prop :=
  ∀ s : State,
    (s.req.P.length ∉ [3, 67] →
      exec .decNec s = .next { s with rsp := .error .invalidPulseCount, pending := false })
    ∧ (s.req.P.length ∈ [3, 67] → dur s.req.P 0 < 8800 ∨ 9300 < dur s.req.P 0 →
      exec .decNec s = .next { s with rsp := .error .invalidAgcMark, pending := false })
    ∧ (s.req.P.length ∈ [3, 67] → 8800 ≤ dur s.req.P 0 → dur s.req.P 0 ≤ 9300 →
      ¬ (2100 ≤ dur s.req.P 1 ∧ dur s.req.P 1 ≤ 2300 ∧ 450 ≤ dur s.req.P 2 ∧ dur s.req.P 2 ≤ 700) →
      dur s.req.P 1 < 4400 ∨ 4600 < dur s.req.P 1 →
      exec .decNec s = .next { s with rsp := .error .invalidAgcSpace, pending := false })
    ∧ (s.req.P.length = 3 → 8800 ≤ dur s.req.P 0 → dur s.req.P 0 ≤ 9300 →
      4400 ≤ dur s.req.P 1 → dur s.req.P 1 ≤ 4600 →
      exec .decNec s = .next { s with rsp := .error .checksumMismatch, pending := false })

/-- R131. After the count and the AGC mark have passed, DEC_NEC answers the repeat signal if and only if
`2100 <= P[1] <= 2300` and `450 <= P[2] <= 700`, for 67 pulses just as for 3; where it is none the AGC-space check follows and
fails exactly when `P[1]` is outside 4400 to 4600. That each window
holds both its ends is the spec's decision D7 (R12, R137; log entry 9). -/
def Obligations.RepeatDetectorIsTheTwoWindows : Prop :=
  ∀ s : State, (s.req.P.length = 3 ∨ s.req.P.length = 67) → 8800 ≤ dur s.req.P 0 → dur s.req.P 0 ≤ 9300 →
    (exec .decNec s = .next { s with rsp := .ok .necRpt, pending := false }
      ↔ 2100 ≤ dur s.req.P 1 ∧ dur s.req.P 1 ≤ 2300 ∧ 450 ≤ dur s.req.P 2 ∧ dur s.req.P 2 ≤ 700)
    ∧ (exec .decNec s = .next { s with rsp := .error .invalidAgcSpace, pending := false }
      ↔ ¬ (2100 ≤ dur s.req.P 1 ∧ dur s.req.P 1 ≤ 2300 ∧ 450 ≤ dur s.req.P 2 ∧ dur s.req.P 2 ≤ 700)
        ∧ (dur s.req.P 1 < 4400 ∨ 4600 < dur s.req.P 1))

/-- R130, R134, R136. A 67-pulse sequence with good AGC pulses: bit `k` is 1 exactly when `4 * P[3 + 2k] > 7 * P[2 + 2k]`; the
checksum is judged first; then the low byte alone when the high byte is its complement, else `high * 256 + low`. That the windows
hold their ends is the spec's decision D7 (R12, R137), the address formula its decision D11 and conflict C3 (log entry 9). -/
def Obligations.DecNecUnpacksTheFrame : Prop :=
  ∀ s : State, s.req.P.length = 67 → 8800 ≤ dur s.req.P 0 → dur s.req.P 0 ≤ 9300 →
    4400 ≤ dur s.req.P 1 → dur s.req.P 1 ≤ 4600 →
    ∃ low high command inverted : Byte,
      (∀ j < 8,
        low.getLsbD j = decide (4 * dur s.req.P (3 + 2 * j) > 7 * dur s.req.P (2 + 2 * j))
        ∧ high.getLsbD j = decide (4 * dur s.req.P (3 + 2 * (8 + j)) > 7 * dur s.req.P (2 + 2 * (8 + j)))
        ∧ command.getLsbD j = decide (4 * dur s.req.P (3 + 2 * (16 + j)) > 7 * dur s.req.P (2 + 2 * (16 + j)))
        ∧ inverted.getLsbD j = decide (4 * dur s.req.P (3 + 2 * (24 + j)) > 7 * dur s.req.P (2 + 2 * (24 + j))))
      ∧ (inverted ≠ ~~~command →
          exec .decNec s = .next { s with rsp := .error .checksumMismatch, pending := false })
      ∧ (inverted = ~~~command → high = ~~~low →
          exec .decNec s = .next { s with
            rsp := .ok (.necCmd (BitVec.ofNat 16 low.toNat) command), pending := false })
      ∧ (inverted = ~~~command → high ≠ ~~~low →
          exec .decNec s = .next { s with
            rsp := .ok (.necCmd (BitVec.ofNat 16 (high.toNat * 256 + low.toNat)) command), pending := false })

/-- R53, R135(c), decision D18. DEC_NEC never examines the trailing mark, element 66 of a 67-pulse sequence. -/
def Obligations.DecNecNeverReadsTheTrailingMark : Prop :=
  ∀ (s : State) (v : Pulse), s.req.P.length = 67 →
    ∃ r, exec .decNec s = .next { s with rsp := r, pending := false }
      ∧ exec .decNec { s with req := { s.req with P := s.req.P.set 66 v } }
          = .next { s with req := { s.req with P := s.req.P.set 66 v }, rsp := r, pending := false }

/-- R135(a). Decoding is not one-to-one on addresses below 256: the frame with high byte 0 and the legacy frame of the same low
byte decode to the same response. The two frames are what the row NEC32 emits, which is this model's choice (log entry 7); that high byte 0 gives the low byte
rests on the address formula of decision D11 and conflict C3 (log entry 9). -/
def Obligations.TwoFramesDecodeToOneLowAddress : Prop :=
  ∀ (l c : Byte) (s t u d e : State) (Q Q' : List Pulse),
    exec (.nec32 l 0 c (~~~c)) s = .next t → t.rsp = .ok (.pulses Q) →
    exec (.nec32 l (~~~l) c (~~~c)) s = .next u → u.rsp = .ok (.pulses Q') →
    d.req.P = Q → e.req.P = Q' →
    exec .decNec d = .next { d with rsp := .ok (.necCmd (BitVec.ofNat 16 l.toNat) c), pending := false }
    ∧ exec .decNec e = .next { e with rsp := .ok (.necCmd (BitVec.ofNat 16 l.toNat) c), pending := false }

/-! ## Both protocols and the caller -/

/-- R71. No pulse sequence is accepted by both decoders. -/
def Obligations.NoSequenceIsAcceptedByBothDecoders : Prop :=
  ∀ (a b t u : State) (v w : Success), a.req.P = b.req.P → exec .decSirc a = .next t → exec .decNec b = .next u →
    ¬ (t.rsp = .ok v ∧ u.rsp = .ok w)

/-- R77. DECODE_ANY returns the SIRC result if DEC_SIRC accepts the pulses, the NEC result if DEC_NEC accepts them (so the order
of the two does not change the result), and the pulses as they are if neither does. -/
def Obligations.DecodeAnyReturnsTheAcceptingDecoder : Prop :=
  ∀ (s : State) (P : List Pulse), ∃ t1 t2 t d,
    step (s.present (Call.decodeSirc P).request) = .next t1
    ∧ step (s.present (Call.decodeNec P).request) = .next t2
    ∧ decodeAny s P = .next (t, d)
    ∧ (∀ v, t1.rsp = .ok v → d = .command v) ∧ (∀ v, t2.rsp = .ok v → d = .command v)
    ∧ ((∀ v, t1.rsp ≠ .ok v) → (∀ v, t2.rsp ≠ .ok v) → d = .raw P)

/-- R76. Every call of the source's syntax is a request the block answers, by the operation R76 names for it, with the call's
arguments in the fields R76 names: `ext_present` and `ext` from the optional extended device, `force8` from the optional flag.
The response, and that nothing else runs, is what `exec` of that operation gives. -/
def Obligations.EveryCallIsAnswered : Prop :=
  ∀ s : State,
    (∀ (call : Call) (t : State), t = s.present call.request →
      ∃ r, ((∃ v, r = .ok v) ∨ (∃ k, r = .error k)) ∧ step t = .next { req := call.request, pending := false, rsp := r })
    ∧ (∀ bits t, t = s.present (Call.bitsToValue bits).request → step t = exec .b2v t ∧ t.req.bits = bits)
    ∧ (∀ value width t, t = s.present (Call.valueToPulsesSirc value width).request →
        step t = exec .v2pSirc t ∧ t.req.value = value ∧ t.req.width = width)
    ∧ (∀ value width t, t = s.present (Call.valueToPulsesNec value width).request →
        step t = exec .v2pNec t ∧ t.req.value = value ∧ t.req.width = width)
    ∧ (∀ mark space t, t = s.present (Call.classifyPulsePair mark space).request →
        step t = exec .classify t ∧ t.req.mark = mark ∧ t.req.space = space)
    ∧ (∀ command device force8 t, t = s.present (Call.encodeSirc command device none force8).request →
        step t = exec .encSirc t ∧ t.req.command = command ∧ t.req.device = device ∧ t.req.extPresent = false
        ∧ t.req.force8 = force8)
    ∧ (∀ command device ext force8 t, t = s.present (Call.encodeSirc command device (some ext) force8).request →
        step t = exec .encSirc t ∧ t.req.command = command ∧ t.req.device = device ∧ t.req.extPresent = true
        ∧ t.req.ext = ext ∧ t.req.force8 = force8)
    ∧ (∀ pulses t, t = s.present (Call.decodeSirc pulses).request → step t = exec .decSirc t ∧ t.req.P = pulses)
    ∧ (∀ address command t, t = s.present (Call.encodeNec address command).request →
        step t = exec .encNec t ∧ t.req.address = address ∧ t.req.command = command)
    ∧ (∀ pulses t, t = s.present (Call.decodeNec pulses).request → step t = exec .decNec t ∧ t.req.P = pulses)
    ∧ ∀ t, t = s.present Call.necRepeat.request → step t = exec .necRepeat t

/-- R176, R180. The capture ingestion. There is one delta for each interval between edges, in order, and they are what is split.
A run `as` of intervals of at most 10,000 is one sequence of just those elements; a gap `g` above 10,000 after it cuts there
and nowhere else. The gap is in neither sequence, ends the earlier or begins the later, which is a parameter (log entry 11),
and from 65,536 up it is in neither. With gaps dropped no sequence holds an element above 10,000. The model's choices here:
timestamps are whole microseconds (log entry 20), cuts side by side leave empty sequences (log entry 21), and the first interval
counts whatever the direction of its edge (log entry 22). -/
def Obligations.CaptureIngestionCutsTheDeltasAtTheGaps : Prop :=
  (∀ (use : GapUse) (ts : List Nat), captureIngest use ts = captureSplit use (deltas ts)
    ∧ (deltas ts).length = ts.length - 1
    ∧ ∀ k, k + 1 < ts.length → (deltas ts)[k]? = some (ts.getD (k + 1) 0 - ts.getD k 0))
  ∧ (∀ (use : GapUse) (as : List Nat), (∀ d ∈ as, d ≤ 10000) →
      captureSplit use as = [as.map (BitVec.ofNat 16)])
  ∧ (∀ (as bs : List Nat) (g : Nat), (∀ d ∈ as, d ≤ 10000) → 10000 < g → ∀ kept : List Pulse,
      kept = (if g < 65536 then [BitVec.ofNat 16 g] else []) →
      captureSplit .dropped (as ++ g :: bs) = as.map (BitVec.ofNat 16) :: captureSplit .dropped bs
      ∧ captureSplit .endsEarlier (as ++ g :: bs)
          = (as.map (BitVec.ofNat 16) ++ kept) :: captureSplit .endsEarlier bs
      ∧ ∃ current later, captureSplit .beginsLater bs = current :: later
          ∧ captureSplit .beginsLater (as ++ g :: bs) = as.map (BitVec.ofNat 16) :: (kept ++ current) :: later)
  ∧ ∀ ds : List Nat, ∀ q ∈ captureSplit .dropped ds, ∀ v ∈ q, v.toNat ≤ 10000
end

