-- ==== Sys2Proof/Laws/Caller.lean ====
section
/-! SUPPORT. What one interval does to the capture split, so that no later proof unfolds it. -/

namespace Sys2Proof.Laws

open Sys2Proof.Machine

theorem asElement_of_lt {d : Nat} (h : d < 2 ^ 16) : asElement d = [BitVec.ofNat 16 d] := if_pos h

theorem asElement_of_le {d : Nat} (h : 2 ^ 16 ≤ d) : asElement d = [] := if_neg (Nat.not_lt.mpr h)

theorem captureSplit_nil (use : GapUse) : captureSplit use [] = [[]] := rfl

/-- There is always a current sequence. -/
theorem captureSplit_ne_nil (use : GapUse) (ds : List Nat) : captureSplit use ds ≠ [] := by
  cases ds with
  | nil => exact List.cons_ne_nil _ _
  | cons d ds =>
    rw [captureSplit]
    split
    · exact List.cons_ne_nil _ _
    · split
      · cases use <;> exact List.cons_ne_nil _ _
      · exact List.cons_ne_nil _ _

/-- An interval that is no gap joins the sequence that follows it. -/
theorem captureSplit_element {use : GapUse} {d : Nat} {ds : List Nat} {current : List Pulse} {later : List (List Pulse)}
    (hd : d ≤ 10000) (h : captureSplit use ds = current :: later) :
    captureSplit use (d :: ds) = (asElement d ++ current) :: later := by
  rw [captureSplit, h]
  exact if_neg (Nat.not_lt.mpr hd)

/-- A gap that is dropped only cuts. -/
theorem captureSplit_gap_dropped {d : Nat} (ds : List Nat) (hd : 10000 < d) :
    captureSplit .dropped (d :: ds) = [] :: captureSplit .dropped ds := by
  obtain ⟨current, later, h⟩ := List.exists_cons_of_ne_nil (captureSplit_ne_nil .dropped ds)
  rw [captureSplit, h]
  exact if_pos hd

/-- A gap that ends the earlier sequence is, before its cut, all there is of it. -/
theorem captureSplit_gap_endsEarlier {d : Nat} (ds : List Nat) (hd : 10000 < d) :
    captureSplit .endsEarlier (d :: ds) = asElement d :: captureSplit .endsEarlier ds := by
  obtain ⟨current, later, h⟩ := List.exists_cons_of_ne_nil (captureSplit_ne_nil .endsEarlier ds)
  rw [captureSplit, h]
  exact if_pos hd

/-- A gap that begins the later sequence stands before its first element. -/
theorem captureSplit_gap_beginsLater {d : Nat} {ds : List Nat} {current : List Pulse} {later : List (List Pulse)}
    (hd : 10000 < d) (h : captureSplit .beginsLater ds = current :: later) :
    captureSplit .beginsLater (d :: ds) = [] :: (asElement d ++ current) :: later := by
  rw [captureSplit, h]
  exact if_pos hd

end Sys2Proof.Laws
end

