-- ==== Sys2Proof/Laws/Operands.lean ====
section
/-! SUPPORT. What the operand forms of Machine/Operands.lean are: bit sequences, values, slices, complements. -/

namespace Sys2Proof.Laws

open Sys2Proof.Machine

theorem bitsOf_length (v w : Nat) : (bitsOf v w).length = w := by
  simp [bitsOf]

theorem bitsOf_getElem? (v w k : Nat) (hk : k < w) : (bitsOf v w)[k]? = some (v.testBit k) := by
  simp [bitsOf, hk]

theorem bitsOf_zero (v : Nat) : bitsOf v 0 = [] := rfl

/-- A bit sequence is determined by the bits below its width. -/
theorem bitsOf_congr {v v' w : Nat} (h : ∀ k < w, v.testBit k = v'.testBit k) : bitsOf v w = bitsOf v' w := by
  apply List.map_congr_left
  intro k hk
  exact h k (List.mem_range.mp hk)

/-- Fields that follow each other in a number follow each other in its bit sequence. -/
theorem bitsOf_add (v a b : Nat) : bitsOf v (a + b) = bitsOf v a ++ bitsOf (v >>> a) b := by
  simp [bitsOf, List.range_add, Function.comp_def]

theorem valueOf_nil : valueOf [] = 0 := rfl

theorem valueOf_cons (b : Bool) (bs : List Bool) : valueOf (b :: bs) = b.toNat + 2 * valueOf bs := rfl

theorem valueOf_lt (bs : List Bool) : valueOf bs < 2 ^ bs.length := by
  induction bs with
  | nil => simp [valueOf]
  | cons b bs ih =>
    have hb := Bool.toNat_le b
    simp only [valueOf, List.length_cons, Nat.pow_succ]
    omega

/-- Bit `k` of a sequence's value is its element `k`, 0 beyond its end. -/
theorem valueOf_testBit (bs : List Bool) (k : Nat) : (valueOf bs).testBit k = bs.getD k false := by
  induction bs generalizing k with
  | nil => simp [valueOf]
  | cons b bs ih =>
    cases k with
    | zero =>
      cases b <;> simp [valueOf, Nat.testBit_zero]
    | succ k =>
      have h : (valueOf (b :: bs)) / 2 = valueOf bs := by
        rw [valueOf_cons]
        have hb := Bool.toNat_lt b
        omega
      rw [Nat.testBit_succ, h, ih]
      simp

/-- Sequences with the same elements have the same value; elements beyond the end count as 0. -/
theorem valueOf_ext {bs : List Bool} {v : Nat} (h : ∀ k, bs.getD k false = v.testBit k) : valueOf bs = v :=
  Nat.eq_of_testBit_eq fun k => by rw [valueOf_testBit, h]

theorem slice_length {α : Type} (s : List α) (a b : Nat) (hb : b ≤ s.length) : (slice s a b).length = b - a := by
  simp [slice, hb]

theorem slice_getElem? {α : Type} (s : List α) (a b k : Nat) (hk : a + k < b) :
    (slice s a b)[k]? = s[a + k]? := by
  simp [slice, hk]

/-- The complement as a number (R11). -/
theorem comp8_eq (a : Nat) : comp8 a = 255 - a % 256 := by
  simp [comp8]

theorem comp8_lt (a : Nat) : comp8 a < 256 := by
  rw [comp8_eq]; omega

/-- The complement's bits are the opposite bits. -/
theorem comp8_testBit (a k : Nat) (hk : k < 8) : (comp8 a).testBit k = !a.testBit k := by
  have h : (comp8 a).testBit k = (~~~(BitVec.ofNat 8 a)).getLsbD k := rfl
  rw [h, BitVec.getLsbD_not, BitVec.getLsbD_ofNat]
  simp [hk]

theorem sircSymbol_eq (b : Bool) : sircSymbol b = [if b then 1200 else 600, 600] := by
  cases b <;> rfl

theorem necSymbol_eq (b : Bool) : necSymbol b = [560, if b then 1690 else 560] := by
  cases b <;> rfl

/-- A window test that passes (R12). -/
theorem inWindow_true_iff (v : Pulse) (lo hi : Nat) : inWindow v lo hi = true ↔ lo ≤ v.toNat ∧ v.toNat ≤ hi := by
  simp [inWindow]

/-- A window test that fails. -/
theorem inWindow_false_iff (v : Pulse) (lo hi : Nat) : inWindow v lo hi = false ↔ v.toNat < lo ∨ hi < v.toNat := by
  rw [← Bool.not_eq_true, inWindow_true_iff]
  omega

theorem classifyPair_true_iff (first second : Pulse) :
    classifyPair first second = true ↔ 7 * first.toNat < 4 * second.toNat := by
  rw [classifyPair, decide_eq_true_iff]
  rfl

/-- The checks of ENC_SIRC with their limits written out. -/
theorem sircCheck_eq (command device : Nat) (extPresent : Bool) (ext : Nat) :
    sircCheck command device extPresent ext =
      if 4096 ≤ command then some .invalidCommand
      else if extPresent then
        if 256 ≤ ext then some .invalidExtendedDevice
        else if 32 ≤ device then some .invalidDevice
        else none
      else if 256 ≤ device then some .invalidDeviceId
      else none := rfl

/-- The device width with its limit written out. -/
theorem sircDeviceWidth_eq (device : Nat) (force8 : Bool) :
    sircDeviceWidth device force8 = if 32 ≤ device ∨ force8 = true then 8 else 5 := rfl

/-- The low address byte with its limit written out. -/
theorem necAddressLow_eq (address : Nat) : necAddressLow address = address % 256 := by
  have h : necAddressLow address = if address < 256 then address else address &&& (2 ^ 8 - 1) := rfl
  rw [h, Nat.and_two_pow_sub_one_eq_mod]
  split <;> omega

/-- The high address byte as arithmetic: a complement below 256, else the high byte. -/
theorem necAddressHigh_eq (address : Nat) :
    necAddressHigh address = if address < 256 then 255 - address else address / 256 % 256 := by
  have h : necAddressHigh address =
      if address < 256 then comp8 address else (address >>> 8) &&& (2 ^ 8 - 1) := rfl
  rw [h, Nat.and_two_pow_sub_one_eq_mod, comp8_eq, Nat.shiftRight_eq_div_pow]
  split
  · omega
  · rfl

/-- The checks of ENC_NEC with their limits written out and the ambiguity test as arithmetic. -/
theorem necCheck_eq (address command : Nat) :
    necCheck address command =
      if 256 ≤ command then some .invalidCommand
      else if 65536 ≤ address then some .invalidAddress
      else if address < 256 then none
      else if address % 256 = 255 - address / 256 then some .invalidAddress
      else none := by
  have h : necCheck address command =
      if 256 ≤ command then some .invalidCommand
      else if 65536 ≤ address then some .invalidAddress
      else if address < 256 then none
      else if necAddressLow address = comp8 (necAddressHigh address) then some .invalidAddress
      else none := rfl
  rw [h]
  by_cases h2 : 65536 ≤ address
  · rw [if_pos h2, if_pos h2]
  by_cases h3 : address < 256
  · rw [if_pos h3, if_pos h3]
  have hhigh : comp8 (necAddressHigh address) = 255 - address / 256 := by
    rw [comp8_eq, necAddressHigh_eq, if_neg h3]
    omega
  rw [necAddressLow_eq, hhigh]

end Sys2Proof.Laws
end

