-- ==== Sys2Proof/Laws/Sequences.lean ====
section
/-! SUPPORT. What the serializers emit and what the reads give, element by element. -/

namespace Sys2Proof.Laws

open Sys2Proof.Machine

/-- A sequence made of pairs: its length and its elements. -/
theorem flatMap_pair_length {α β : Type} (f g : α → β) (bs : List α) :
    (bs.flatMap fun b => [f b, g b]).length = 2 * bs.length := by
  induction bs with
  | nil => rfl
  | cons b bs ih => simp only [List.flatMap_cons, List.length_append, List.length_cons, List.length_nil, ih]; omega

theorem flatMap_pair_first {α β : Type} (f g : α → β) (bs : List α) (k : Nat) :
    (bs.flatMap fun b => [f b, g b])[2 * k]? = bs[k]?.map f := by
  induction bs generalizing k with
  | nil => simp
  | cons b bs ih =>
    cases k with
    | zero => simp
    | succ k =>
      have h : 2 * (k + 1) = 2 * k + 1 + 1 := by omega
      simp [h, ih]

theorem flatMap_pair_second {α β : Type} (f g : α → β) (bs : List α) (k : Nat) :
    (bs.flatMap fun b => [f b, g b])[2 * k + 1]? = bs[k]?.map g := by
  induction bs generalizing k with
  | nil => simp
  | cons b bs ih =>
    cases k with
    | zero => simp
    | succ k =>
      have h : 2 * (k + 1) + 1 = 2 * k + 1 + 1 + 1 := by omega
      simp [h, ih]

theorem v2pSirc_eq (v w : Nat) :
    v2pSirc v w = (bitsOf v w).flatMap fun b => [if b then 1200 else 600, 600] := by
  rw [v2pSirc, funext sircSymbol_eq]

theorem v2pNec_eq (v w : Nat) :
    v2pNec v w = (bitsOf v w).flatMap fun b => [560, if b then 1690 else 560] := by
  rw [v2pNec, funext necSymbol_eq]

theorem v2pSirc_length (v w : Nat) : (v2pSirc v w).length = 2 * w := by
  rw [v2pSirc_eq, flatMap_pair_length (fun b : Bool => if b then (1200 : Pulse) else 600) (fun _ => 600),
    bitsOf_length]

theorem v2pNec_length (v w : Nat) : (v2pNec v w).length = 2 * w := by
  rw [v2pNec_eq, flatMap_pair_length (fun _ => (560 : Pulse)) (fun b : Bool => if b then 1690 else 560),
    bitsOf_length]

theorem v2pSirc_mark (v w k : Nat) (hk : k < w) :
    (v2pSirc v w)[2 * k]? = some (if v.testBit k then 1200 else 600) := by
  rw [v2pSirc_eq, flatMap_pair_first (fun b : Bool => if b then (1200 : Pulse) else 600) (fun _ => 600),
    bitsOf_getElem? v w k hk]
  rfl

theorem v2pSirc_space (v w k : Nat) (hk : k < w) : (v2pSirc v w)[2 * k + 1]? = some 600 := by
  rw [v2pSirc_eq, flatMap_pair_second (fun b : Bool => if b then (1200 : Pulse) else 600) (fun _ => 600),
    bitsOf_getElem? v w k hk]
  rfl

theorem v2pNec_mark (v w k : Nat) (hk : k < w) : (v2pNec v w)[2 * k]? = some 560 := by
  rw [v2pNec_eq, flatMap_pair_first (fun _ => (560 : Pulse)) (fun b : Bool => if b then 1690 else 560),
    bitsOf_getElem? v w k hk]
  rfl

theorem v2pNec_space (v w k : Nat) (hk : k < w) :
    (v2pNec v w)[2 * k + 1]? = some (if v.testBit k then 1690 else 560) := by
  rw [v2pNec_eq, flatMap_pair_second (fun _ => (560 : Pulse)) (fun b : Bool => if b then 1690 else 560),
    bitsOf_getElem? v w k hk]
  rfl

/-- Serializing two fields one after the other is serializing the number that holds both. -/
theorem v2pSirc_add (v a b : Nat) : v2pSirc v (a + b) = v2pSirc v a ++ v2pSirc (v >>> a) b := by
  simp [v2pSirc, bitsOf_add]

theorem v2pNec_add (v a b : Nat) : v2pNec v (a + b) = v2pNec v a ++ v2pNec (v >>> a) b := by
  simp [v2pNec, bitsOf_add]

theorem v2pSirc_congr {v v' w : Nat} (h : ∀ k < w, v.testBit k = v'.testBit k) : v2pSirc v w = v2pSirc v' w := by
  rw [v2pSirc, bitsOf_congr h, v2pSirc]

theorem v2pNec_congr {v v' w : Nat} (h : ∀ k < w, v.testBit k = v'.testBit k) : v2pNec v w = v2pNec v' w := by
  rw [v2pNec, bitsOf_congr h, v2pNec]

/-- A read inside the sequence gives the element. -/
theorem readPulse_ok {P : List Pulse} {i : Nat} (h : i < P.length) : readPulse P i = .ok (P.getD i 0) := by
  simp [readPulse, h]

theorem readBit_ok {P : List Pulse} {base : Nat} (h : base + 1 < P.length) :
    readBit P base = .ok (classifyPair (P.getD base 0) (P.getD (base + 1) 0)) := by
  simp only [readBit, readPulse_ok (show base < P.length by omega), readPulse_ok h]

/-- Reading `nb` pairs inside the sequence gives the bit of each pair, in order. -/
theorem readBits_ok {P : List Pulse} {base nb : Nat} (h : base + 2 * nb ≤ P.length) :
    readBits P base nb =
      .ok ((List.range nb).map fun k => classifyPair (P.getD (base + 2 * k) 0) (P.getD (base + 2 * k + 1) 0)) := by
  induction nb generalizing base with
  | zero => rfl
  | succ nb ih =>
    simp only [readBits, readBit_ok (show base + 1 < P.length by omega),
      ih (show base + 2 + 2 * nb ≤ P.length by omega), List.range_succ_eq_map, List.map_cons, List.map_map]
    have h2 : ∀ k : Nat, base + 2 + 2 * k = base + 2 * k.succ := fun k => by omega
    simp [Function.comp_def, h2]

end Sys2Proof.Laws
end

