-- ==== Sys2Proof/Laws/Codec.lean ====
section
/-! SUPPORT. The decoders without their reads: what each answers for any sequence, in one equation each. -/

namespace Sys2Proof.Laws

open Sys2Proof.Machine

/-- The bits of `nb` pairs from `base` on, for a sequence that holds them. -/
theorem readBits_length {P : List Pulse} {base nb : Nat} {b : List Bool} (h : readBits P base nb = .ok b)
    (hP : base + 2 * nb ≤ P.length) : b.length = nb := by
  rw [readBits_ok hP] at h
  cases h
  simp

/-- DEC_SIRC, for every sequence: no read fails, and the answer is the first failing check or the fields. -/
theorem decodeSirc_eq (P : List Pulse) :
    decodeSirc P = .ok (
      if P.length ∉ [25, 31, 41] then .raise .invalidPulseCount
      else if inWindow (P.getD 0 0) 2200 2600 = false then .raise .invalidHeader
      else .ok (sircFields P.length ((List.range ((P.length - 1) / 2)).map fun k =>
        classifyPair (P.getD (1 + 2 * k) 0) (P.getD (1 + 2 * k + 1) 0)))) := by
  show _ = Except.ok (if P.length ∉ Const.sircCounts then _
    else if inWindow (P.getD 0 0) Const.sircHdrLo Const.sircHdrHi = false then _ else _)
  unfold decodeSirc
  by_cases hn : P.length ∉ Const.sircCounts
  · rw [if_pos hn, if_pos hn]
  · rw [if_neg hn, if_neg hn]
    have hpos : 0 < P.length := by
      simp only [Const.sircCounts, not_not, List.mem_cons, List.not_mem_nil, or_false] at hn
      omega
    have hbits : 1 + 2 * ((P.length - 1) / 2) ≤ P.length := by omega
    simp only [readPulse_ok hpos, readBits_ok hbits]
    split <;> rfl

/-- DEC_NEC, for every sequence: no read fails, and the answer is the first failing check, the repeat signal, or what the 32
bits give. -/
theorem decodeNec_eq (P : List Pulse) :
    decodeNec P = .ok (
      if P.length ∉ [3, 67] then .raise .invalidPulseCount
      else if inWindow (P.getD 0 0) 8800 9300 = false then .raise .invalidAgcMark
      else if isRepeat (P.getD 1 0) (P.getD 2 0) then .ok .necRpt
      else if inWindow (P.getD 1 0) 4400 4600 = false then .raise .invalidAgcSpace
      else if P.length = 3 then .raise .checksumMismatch
      else necFields ((List.range 32).map fun k =>
        classifyPair (P.getD (2 + 2 * k) 0) (P.getD (2 + 2 * k + 1) 0))) := by
  show _ = Except.ok (if P.length ∉ Const.necCounts then _
    else if inWindow (P.getD 0 0) Const.necAgcMarkLo Const.necAgcMarkHi = false then _
    else if isRepeat (P.getD 1 0) (P.getD 2 0) then _
    else if inWindow (P.getD 1 0) Const.necAgcSpaceLo Const.necAgcSpaceHi = false then _
    else if P.length = Const.necRepeatCount then _
    else necFields ((List.range Const.necDataBits).map _))
  unfold decodeNec
  by_cases hn : P.length ∉ Const.necCounts
  · rw [if_pos hn, if_pos hn]
  · rw [if_neg hn, if_neg hn]
    have hlen : P.length = 3 ∨ P.length = 67 := by
      simpa only [Const.necCounts, not_not, List.mem_cons, List.not_mem_nil, or_false] using hn
    have h0 : 0 < P.length := by omega
    have h1 : 1 < P.length := by omega
    have h2 : 2 < P.length := by omega
    simp only [readPulse_ok h0, readPulse_ok h1, readPulse_ok h2, decodeNecBody]
    by_cases h3 : P.length = Const.necRepeatCount
    · simp only [if_pos h3]
      split <;> [rfl; (split <;> [rfl; (split <;> rfl)])]
    · have hbits : 2 + 2 * Const.necDataBits ≤ P.length := by
        simp only [Const.necRepeatCount] at h3
        simp only [Const.necDataBits]
        omega
      simp only [if_neg h3, readBits_ok hbits]
      split <;> [rfl; (split <;> [rfl; (split <;> rfl)])]

/-- The repeat test as arithmetic (R131). -/
theorem isRepeat_iff (p1 p2 : Pulse) :
    isRepeat p1 p2 = true ↔ 2100 ≤ p1.toNat ∧ p1.toNat ≤ 2300 ∧ 450 ≤ p2.toNat ∧ p2.toNat ≤ 700 := by
  have h : isRepeat p1 p2 = (inWindow p1 2100 2300 && inWindow p2 450 700) := rfl
  rw [h, Bool.and_eq_true, inWindow_true_iff, inWindow_true_iff, and_assoc]

end Sys2Proof.Laws
end

