-- ==== Sys2Proof/Laws/Encoding.lean ====
section
/-! SUPPORT. Fields and frame words as arithmetic: what a field of a number is, and each frame word as the sum of its fields. -/

namespace Sys2Proof.Laws

/-- A field as a number: shift down, then keep the low bits. -/
theorem field_toNat (w lo width : Nat) : (field w lo width).toNat = w / 2 ^ lo % 2 ^ width := by
  simp [field, Nat.shiftRight_eq_div_pow]

/-- Setting a field above a smaller number is adding it, shifted. -/
theorem or_shiftLeft_eq_add {a k : Nat} (b : Nat) (h : a < 2 ^ k) : a ||| (b <<< k) = a + b * 2 ^ k := by
  rw [Nat.or_comm, ← Nat.shiftLeft_add_eq_or_of_lt h, Nat.shiftLeft_eq, Nat.add_comm]

theorem sirc12Word_eq (c : BitVec 7) (d : BitVec 5) : sirc12Word c d = c.toNat + d.toNat * 2 ^ 7 :=
  or_shiftLeft_eq_add _ c.isLt

theorem sirc15Word_eq (c : BitVec 7) (d : BitVec 8) : sirc15Word c d = c.toNat + d.toNat * 2 ^ 7 :=
  or_shiftLeft_eq_add _ c.isLt

theorem sirc20Word_eq (c : BitVec 7) (d : BitVec 5) (e : BitVec 8) :
    sirc20Word c d e = c.toNat + d.toNat * 2 ^ 7 + e.toNat * 2 ^ 12 := by
  have hc := c.isLt
  have hd := d.isLt
  rw [sirc20Word, or_shiftLeft_eq_add _ hc, or_shiftLeft_eq_add _ (by omega)]

theorem sirc23Word_eq (c : BitVec 7) (d : BitVec 8) (e : BitVec 8) :
    sirc23Word c d e = c.toNat + d.toNat * 2 ^ 7 + e.toNat * 2 ^ 15 := by
  have hc := c.isLt
  have hd := d.isLt
  rw [sirc23Word, or_shiftLeft_eq_add _ hc, or_shiftLeft_eq_add _ (by omega)]

theorem nec32Word_eq (l h c i : Byte) :
    nec32Word l h c i = l.toNat + h.toNat * 2 ^ 8 + c.toNat * 2 ^ 16 + i.toNat * 2 ^ 24 := by
  have hl := l.isLt
  have hh := h.isLt
  have hc := c.isLt
  have h16 : l.toNat + h.toNat * 2 ^ 8 < 2 ^ 16 := by omega
  have h24 : l.toNat + h.toNat * 2 ^ 8 + c.toNat * 2 ^ 16 < 2 ^ 24 := by omega
  rw [nec32Word, or_shiftLeft_eq_add _ hl, or_shiftLeft_eq_add _ h16, or_shiftLeft_eq_add _ h24]

end Sys2Proof.Laws
end

