-- ==== Sys2Proof/Laws/PerInstr.lean ====
section
/-! SUPPORT. Statements about every row as syntax, one lemma per constructor. -/

/-- A row's code fits the place it stands in: an operation select is one of the nine of R60, and a frame word has a length its
protocol has and fits that length (R62, R70). -/
def Sys2Proof.Laws.EncodingFits.Statement (i : Sys2Proof.Instr) : Prop :=
  match Sys2Proof.encode i with
  | .request op => op.toNat < 9
  | .sircFrame nb w => nb ∈ [12, 15, 20, 23] ∧ w < 2 ^ nb
  | .necFrame nb w => nb = 32 ∧ w < 2 ^ nb
  | .sircSymbol b => i = (if b then .sircBit1 else .sircBit0)
  | .necSymbol b => i = (if b then .necBit1 else .necBit0)

namespace Sys2Proof.Laws.EncodingFits

theorem b2v : Statement .b2v := (by decide : (_ : Nat) < 9)
theorem v2pSirc : Statement .v2pSirc := (by decide : (_ : Nat) < 9)
theorem v2pNec : Statement .v2pNec := (by decide : (_ : Nat) < 9)
theorem classify : Statement .classify := (by decide : (_ : Nat) < 9)
theorem encSirc : Statement .encSirc := (by decide : (_ : Nat) < 9)
theorem decSirc : Statement .decSirc := (by decide : (_ : Nat) < 9)
theorem encNec : Statement .encNec := (by decide : (_ : Nat) < 9)
theorem decNec : Statement .decNec := (by decide : (_ : Nat) < 9)
theorem necRepeat : Statement .necRepeat := (by decide : (_ : Nat) < 9)

theorem sirc12 (c : BitVec 7) (d : BitVec 5) : Statement (.sirc12 c d) := by
  show 12 ∈ [12, 15, 20, 23] ∧ sirc12Word c d < 2 ^ 12
  have := c.isLt
  have := d.isLt
  rw [sirc12Word_eq]
  exact ⟨by decide, by omega⟩

theorem sirc15 (c : BitVec 7) (d : BitVec 8) : Statement (.sirc15 c d) := by
  show 15 ∈ [12, 15, 20, 23] ∧ sirc15Word c d < 2 ^ 15
  have := c.isLt
  have := d.isLt
  rw [sirc15Word_eq]
  exact ⟨by decide, by omega⟩

theorem sirc20 (c : BitVec 7) (d : BitVec 5) (e : BitVec 8) : Statement (.sirc20 c d e) := by
  show 20 ∈ [12, 15, 20, 23] ∧ sirc20Word c d e < 2 ^ 20
  have := c.isLt
  have := d.isLt
  have := e.isLt
  rw [sirc20Word_eq]
  exact ⟨by decide, by omega⟩

theorem sirc23 (c : BitVec 7) (d : BitVec 8) (e : BitVec 8) : Statement (.sirc23 c d e) := by
  show 23 ∈ [12, 15, 20, 23] ∧ sirc23Word c d e < 2 ^ 23
  have := c.isLt
  have := d.isLt
  have := e.isLt
  rw [sirc23Word_eq]
  exact ⟨by decide, by omega⟩

theorem nec32 (l h c i : Byte) : Statement (.nec32 l h c i) := by
  show 32 = 32 ∧ nec32Word l h c i < 2 ^ 32
  have := l.isLt
  have := h.isLt
  have := c.isLt
  have := i.isLt
  rw [nec32Word_eq]
  exact ⟨rfl, by omega⟩

theorem sircBit0 : Statement .sircBit0 := rfl
theorem sircBit1 : Statement .sircBit1 := rfl
theorem necBit0 : Statement .necBit0 := rfl
theorem necBit1 : Statement .necBit1 := rfl

end Sys2Proof.Laws.EncodingFits
end

