-- ==== Sys2Proof/Laws/State.lean ====
section
/-! SUPPORT. One lemma per field per update of State, so that no later proof unfolds a record update. -/

namespace Sys2Proof.Laws

open Sys2Proof.Machine

@[simp] theorem present_req (s : State) (r : Request) : (s.present r).req = r := rfl
@[simp] theorem present_pending (s : State) (r : Request) : (s.present r).pending = true := rfl
@[simp] theorem present_rsp (s : State) (r : Request) : (s.present r).rsp = s.rsp := rfl

@[simp] theorem respond_req (s : State) (r : Response) : (s.respond r).req = s.req := rfl
@[simp] theorem respond_pending (s : State) (r : Response) : (s.respond r).pending = false := rfl
@[simp] theorem respond_rsp (s : State) (r : Response) : (s.respond r).rsp = r := rfl

@[simp] theorem succeed_req (s : State) (v : Success) : (s.succeed v).req = s.req := rfl
@[simp] theorem succeed_pending (s : State) (v : Success) : (s.succeed v).pending = false := rfl
@[simp] theorem succeed_rsp (s : State) (v : Success) : (s.succeed v).rsp = .ok v := rfl

@[simp] theorem raise_req (s : State) (k : ErrorKind) : (s.raise k).req = s.req := rfl
@[simp] theorem raise_pending (s : State) (k : ErrorKind) : (s.raise k).pending = false := rfl
@[simp] theorem raise_rsp (s : State) (k : ErrorKind) : (s.raise k).rsp = .error k := rfl

@[simp] theorem resetEvent_req (s : State) : s.resetEvent.req = s.req := rfl
@[simp] theorem resetEvent_pending (s : State) : s.resetEvent.pending = false := rfl
@[simp] theorem resetEvent_rsp (s : State) : s.resetEvent.rsp = .empty := rfl

@[simp] theorem placeOp_op (s : State) (op : BitVec 4) : (s.placeOp op).req.op = op := rfl
@[simp] theorem placeOp_pending (s : State) (op : BitVec 4) : (s.placeOp op).pending = true := rfl
@[simp] theorem placeOp_rsp (s : State) (op : BitVec 4) : (s.placeOp op).rsp = s.rsp := rfl

/-- The response a result becomes. -/
theorem finish_eq_respond (s : State) (r : Result) :
    s.finish r = s.respond (match r with | .ok v => .ok v | .raise k => .error k) := by
  cases r <;> rfl

/-- Everything the end of a reading operation can do: its result becomes the response, or it faults. -/
theorem finishRead_next {s t : State} {r : Except Fault Result} (h : s.finishRead r = .next t) :
    ∃ q, r = .ok q ∧ t = s.finish q := by
  cases r with
  | error f => cases h
  | ok q => exact ⟨q, rfl, by cases h; rfl⟩

/-- An operation's end forgets what RSP held and whether the request was pending. -/
theorem respond_respond (s : State) (a b : Response) : (s.respond a).respond b = s.respond b := rfl

end Sys2Proof.Laws
end

