-- ==== Sys2Proof/Tests/Slice0.lean ====
section
/-! SUPPORT. Tests of the model, in four parts: the well-formedness smoke test; decoding words written out from the spec's
encodings; at most two vectors of 95_test_vectors.md per row; and, for each statement with hypotheses, a theorem `test_meets_…`
that shows operands meeting them, at the boundary values of each clause. Expected results are the spec's. -/

namespace Sys2Proof.Tests

open Sys2Proof Sys2Proof.Machine Sys2Proof.Safety

/-- The block right after reset with a call presented. -/
def ask (c : Call) : State := State.reset.present c.request

/-- The response an instruction ends with. -/
def answer (i : Instr) (s : State) : Option Response :=
  match exec i s with
  | .next t => some t.rsp
  | .fault _ => none
  | .refused _ => none

/-- The state an instruction ends in, if it raises nothing: its request with response `r`. -/
def answered (c : Call) (r : Response) : State := { ask c with rsp := r, pending := false }

/-- V6: `encode_sirc(18, 1)`. -/
def v6 : List Pulse :=
  [2400, 600, 600, 600, 1200, 600, 600, 600, 600, 600, 1200, 600, 600, 600, 600, 600, 1200, 600, 600, 600, 600, 600, 600, 600,
    600]

/-- V25: `encode_sirc(21, 0x97)`. -/
def v25 : List Pulse :=
  [2400, 600, 1200, 600, 600, 600, 1200, 600, 600, 600, 1200, 600, 600, 600, 600, 600, 1200, 600, 1200, 600, 1200, 600,
    600, 600, 1200, 600, 600, 600, 600, 600, 1200]

/-- V30: `encode_sirc(18, 1, 74)`. -/
def v30 : List Pulse :=
  [2400, 600, 600, 600, 1200, 600, 600, 600, 600, 600, 1200, 600, 600, 600, 600, 600, 1200, 600, 600, 600, 600, 600,
    600, 600, 600, 600, 600, 600, 1200, 600, 600, 600, 1200, 600, 600, 600, 600, 600, 1200, 600, 600]

/-- V32: `encode_sirc(5, 3, 7, force_8bit_device)`. -/
def v32 : List Pulse :=
  [2400, 600, 1200, 600, 600, 600, 1200, 600, 600, 600, 600, 600, 600, 600, 600, 600, 1200, 600, 1200, 600, 600, 600,
    600, 600, 600, 600, 600, 600, 600, 600, 600, 600, 1200, 600, 1200, 600, 1200, 600, 600, 600, 600, 600, 600, 600,
    600, 600, 600]

/-- V20: `encode_nec(0x0102, 0x34)`. -/
def v20 : List Pulse :=
  [9000, 4500]
  ++ [560, 560, 560, 1690, 560, 560, 560, 560, 560, 560, 560, 560, 560, 560, 560, 560]
  ++ [560, 1690, 560, 560, 560, 560, 560, 560, 560, 560, 560, 560, 560, 560, 560, 560]
  ++ [560, 560, 560, 560, 560, 1690, 560, 560, 560, 1690, 560, 1690, 560, 560, 560, 560]
  ++ [560, 1690, 560, 1690, 560, 560, 560, 1690, 560, 560, 560, 560, 560, 1690, 560, 1690]
  ++ [560]

/-- V21: `encode_nec(0x04, 0x08)`. -/
def v21 : List Pulse :=
  [9000, 4500]
  ++ [560, 560, 560, 560, 560, 1690, 560, 560, 560, 560, 560, 560, 560, 560, 560, 560]
  ++ [560, 1690, 560, 1690, 560, 560, 560, 1690, 560, 1690, 560, 1690, 560, 1690, 560, 1690]
  ++ [560, 560, 560, 560, 560, 560, 560, 1690, 560, 560, 560, 560, 560, 560, 560, 560]
  ++ [560, 1690, 560, 1690, 560, 1690, 560, 560, 560, 1690, 560, 1690, 560, 1690, 560, 1690]
  ++ [560]

/-- S7: a captured SIRC frame. -/
def s7 : List Pulse :=
  [2442, 560, 623, 575, 1221, 577, 617, 582, 622, 577, 1219, 579, 625, 574, 620, 578, 1218, 580, 624, 575, 619, 581, 623, 575,
    618]

/-! ## Well-formedness -/

/-- R75: a device over 31 is ill formed in a 23-bit frame. R66: the last byte of a NEC frame is the complement. -/
theorem test_ill_formed_terms_are_refused :
    Instr.wf (.sirc23 5 32 7) = false ∧ Instr.wf (.nec32 0x04 0xFB 0x08 0xF6) = false
    ∧ Instr.wf (.sirc23 5 31 7) = true ∧ Instr.wf (.nec32 0x04 0xFB 0x08 0xF7) = true := by decide

/-! ## Decoding -/

/-- R60: the nine selects, bit by bit. -/
theorem test_decode_selects :
    decode (.request 0b0000) = .ok .b2v ∧ decode (.request 0b0001) = .ok .v2pSirc
    ∧ decode (.request 0b0010) = .ok .v2pNec ∧ decode (.request 0b0011) = .ok .classify
    ∧ decode (.request 0b0100) = .ok .encSirc ∧ decode (.request 0b0101) = .ok .decSirc
    ∧ decode (.request 0b0110) = .ok .encNec ∧ decode (.request 0b0111) = .ok .decNec
    ∧ decode (.request 0b1000) = .ok .necRepeat := by decide

/-- R63, R64, R65, R75: field by field, ext device command from the left. -/
theorem test_decode_sirc_frames :
    decode (.sircFrame 12 0b11111_0000001) = .ok (.sirc12 1 31)
    ∧ decode (.sircFrame 15 0b10010111_0010101) = .ok (.sirc15 21 151)
    ∧ decode (.sircFrame 20 0b01001010_00001_0010010) = .ok (.sirc20 18 1 74)
    ∧ decode (.sircFrame 23 0b00000111_00000011_0000101) = .ok (.sirc23 5 3 7) := by decide

/-- R66: inverted, command, high, low from the left (V20, V21). -/
theorem test_decode_nec_frame :
    decode (.necFrame 32 0b11001011_00110100_00000001_00000010) = .ok (.nec32 0x02 0x01 0x34 0xCB)
    ∧ decode (.necFrame 32 0xF708FB04) = .ok (.nec32 0x04 0xFB 0x08 0xF7) := by decide

/-- R68. -/
theorem test_decode_symbols :
    decode (.sircSymbol false) = .ok .sircBit0 ∧ decode (.sircSymbol true) = .ok .sircBit1
    ∧ decode (.necSymbol false) = .ok .necBit0 ∧ decode (.necSymbol true) = .ok .necBit1 := by decide

/-- R62, R66, R70, R74, R75: what decodes to nothing, and why. -/
theorem test_decode_rejects_by_name :
    decode (.request 9) = .error (.reservedOp 9) ∧ decode (.request 15) = .error (.reservedOp 15)
    ∧ decode (.sircFrame 13 0) = .error (.noSuchLength 13) ∧ decode (.necFrame 12 0) = .error (.noSuchLength 12)
    ∧ decode (.sircFrame 12 4096) = .error (.wordTooWide 12 4096)
    ∧ decode (.sircFrame 23 0b00000111_00100000_0000101) = .error (.deviceOverFiveBits 32)
    ∧ decode (.necFrame 32 0xF608FB04) = .error (.notComplement 0x08 0xF6) := by decide

/-- The table's numbering: the select is bits 3 to 0, bits above it are none of it, and a frame word is no select. -/
theorem test_decode_table_words :
    decodeTableWord 8 5 = some .decSirc ∧ decodeTableWord 8 0x18 = some .necRepeat ∧ decodeTableWord 8 9 = none
    ∧ decodeTableWord 32 0xF708FB04 = none := by decide

/-- R60: each select runs as the first operation after reset; NEC_REPEAT gives V42, B2V of nothing V1. -/
theorem test_first_operation_after_reset :
    step (State.reset.withFetchWord 8 8)
      = .next { State.reset.placeOp 8 with rsp := .ok (.pulses [9200, 2250, 560]), pending := false }
    ∧ step (State.reset.withFetchWord 8 0) = .next { State.reset.placeOp 0 with rsp := .ok (.value 0), pending := false } :=
  ⟨rfl, rfl⟩

/-! ## The primitives -/

/-- V2, V3, V4. -/
theorem test_b2v :
    answer .b2v (ask (.bitsToValue [false, true, false, false, true, false, false])) = some (.ok (.value 18))
    ∧ answer .b2v (ask (.bitsToValue (List.replicate 8 true))) = some (.ok (.value 255))
    ∧ answer .b2v (ask (.bitsToValue (List.replicate 7 false ++ [true]))) = some (.ok (.value 128)) := by decide

/-- V1, V5, V5a. -/
theorem test_b2v_widths :
    answer .b2v (ask (.bitsToValue [])) = some (.ok (.value 0))
    ∧ answer .b2v (ask (.bitsToValue [true, false, false])) = some (.ok (.value 1))
    ∧ answer .b2v (ask (.bitsToValue (List.replicate 32 true))) = some (.ok (.value 4294967295)) := by decide

/-- V7, V11. -/
theorem test_v2p_sirc :
    answer .v2pSirc (ask (.valueToPulsesSirc 18 7))
      = some (.ok (.pulses [600, 600, 1200, 600, 600, 600, 600, 600, 1200, 600, 600, 600, 600, 600]))
    ∧ answer .v2pSirc (ask (.valueToPulsesSirc 3 2)) = some (.ok (.pulses [1200, 600, 1200, 600])) := by decide

/-- V9, V10. -/
theorem test_v2p_sirc_width :
    answer .v2pSirc (ask (.valueToPulsesSirc 0x95 7)) = answer .v2pSirc (ask (.valueToPulsesSirc 0x15 7))
    ∧ answer .v2pSirc (ask (.valueToPulsesSirc 5 0)) = some (.ok (.pulses [])) := by decide

/-- V12, V15. -/
theorem test_v2p_nec :
    answer .v2pNec (ask (.valueToPulsesNec 0x34 8))
      = some (.ok (.pulses [560, 560, 560, 560, 560, 1690, 560, 560, 560, 1690, 560, 1690, 560, 560, 560, 560]))
    ∧ answer .v2pNec (ask (.valueToPulsesNec 1 1)) = some (.ok (.pulses [560, 1690])) := by decide

/-- V14. -/
theorem test_v2p_nec_width_zero : answer .v2pNec (ask (.valueToPulsesNec 5 0)) = some (.ok (.pulses [])) := by decide

/-- V16, V16a, V17 (S5). -/
theorem test_classify :
    answer .classify (ask (.classifyPulsePair 600 1050)) = some (.ok (.bit false))
    ∧ answer .classify (ask (.classifyPulsePair 600 1051)) = some (.ok (.bit true))
    ∧ answer .classify (ask (.classifyPulsePair 560 980)) = some (.ok (.bit false))
    ∧ answer .classify (ask (.classifyPulsePair 560 981)) = some (.ok (.bit true)) := by decide

/-- V18, V18a, V19a: zeros, exactness, the top of the range. -/
theorem test_classify_extremes :
    answer .classify (ask (.classifyPulsePair 0 0)) = some (.ok (.bit false))
    ∧ answer .classify (ask (.classifyPulsePair 0 1)) = some (.ok (.bit true))
    ∧ answer .classify (ask (.classifyPulsePair 6 11)) = some (.ok (.bit true))
    ∧ answer .classify (ask (.classifyPulsePair 37448 65535)) = some (.ok (.bit true))
    ∧ answer .classify (ask (.classifyPulsePair 37449 65535)) = some (.ok (.bit false)) := by decide

/-! ## SIRC -/

/-- V6, V25, V30, V32. -/
theorem test_enc_sirc_frames :
    answer .encSirc (ask (.encodeSirc 18 1 none false)) = some (.ok (.pulses v6))
    ∧ answer .encSirc (ask (.encodeSirc 21 0x97 none false)) = some (.ok (.pulses v25))
    ∧ answer .encSirc (ask (.encodeSirc 18 1 (some 74) false)) = some (.ok (.pulses v30))
    ∧ answer .encSirc (ask (.encodeSirc 5 3 (some 7) true)) = some (.ok (.pulses v32)) := by decide

/-- V33: the errors and their priority. -/
theorem test_enc_sirc_errors :
    answer .encSirc (ask (.encodeSirc 4096 32 (some 256) false)) = some (.error .invalidCommand)
    ∧ answer .encSirc (ask (.encodeSirc 1 32 (some 256) false)) = some (.error .invalidExtendedDevice)
    ∧ answer .encSirc (ask (.encodeSirc 0 256 (some 0) false)) = some (.error .invalidDevice)
    ∧ answer .encSirc (ask (.encodeSirc 0 256 none false)) = some (.error .invalidDeviceId) := by decide

/-- S7, V34i, V34h. -/
theorem test_dec_sirc :
    answer .decSirc (ask (.decodeSirc s7)) = some (.ok (.sirc2 18 1))
    ∧ answer .decSirc (ask (.decodeSirc v25)) = some (.ok (.sirc2 21 151))
    ∧ answer .decSirc (ask (.decodeSirc v30)) = some (.ok (.sirc3 18 1 74))
    ∧ answer .decSirc (ask (.decodeSirc (v6.set 1 343))) = some (.ok (.sirc2 18 1))
    ∧ answer .decSirc (ask (.decodeSirc (v6.set 1 342))) = some (.ok (.sirc2 19 1)) := by decide

/-- V34b, V34d, V34f, V32. -/
theorem test_dec_sirc_errors :
    answer .decSirc (ask (.decodeSirc (v6.set 0 2199))) = some (.error .invalidHeader)
    ∧ answer .decSirc (ask (.decodeSirc (v6.set 0 2601))) = some (.error .invalidHeader)
    ∧ answer .decSirc (ask (.decodeSirc (List.replicate 22 100))) = some (.error .invalidPulseCount)
    ∧ answer .decSirc (ask (.decodeSirc (2400 :: List.replicate 24 0))) = some (.ok (.sirc2 0 0))
    ∧ answer .decSirc (ask (.decodeSirc v32)) = some (.error .invalidPulseCount) := by decide

/-! ## NEC -/

/-- V20, V21. -/
theorem test_enc_nec :
    answer .encNec (ask (.encodeNec 0x0102 0x34)) = some (.ok (.pulses v20))
    ∧ answer .encNec (ask (.encodeNec 0x04 0x08)) = some (.ok (.pulses v21)) := by decide

/-- V35: refused addresses and commands, and the address `0xFFFF`, which is accepted. -/
theorem test_enc_nec_errors :
    answer .encNec (ask (.encodeNec 0xFF00 0)) = some (.error .invalidAddress)
    ∧ answer .encNec (ask (.encodeNec 0x01FE 0)) = some (.error .invalidAddress)
    ∧ answer .encNec (ask (.encodeNec 0x10000 0)) = some (.error .invalidAddress)
    ∧ answer .encNec (ask (.encodeNec 0x10000 0x100)) = some (.error .invalidCommand)
    ∧ (answer .encNec (ask (.encodeNec 0xFFFF 0))).isSome ∧ answer .encNec (ask (.encodeNec 0xFFFF 0))
        ≠ some (.error .invalidAddress) := by decide

/-- V20, V36a, V36f, V36, V38: the address, the repeat inside 67 pulses, an undetected address error, the third case. -/
theorem test_dec_nec :
    answer .decNec (ask (.decodeNec v20)) = some (.ok (.necCmd 258 52))
    ∧ answer .decNec (ask (.decodeNec v21)) = some (.ok (.necCmd 4 8))
    ∧ answer .decNec (ask (.decodeNec (v21.set 1 2200))) = some (.ok .necRpt)
    ∧ answer .decNec (ask (.decodeNec (v21.set 3 1690))) = some (.ok (.necCmd 64261 8))
    ∧ answer .decNec (ask (.decodeNec [9000, 4500, 560])) = some (.error .checksumMismatch) := by decide

/-- V36c, V36e, V36g, V36, V36i. -/
theorem test_dec_nec_errors :
    answer .decNec (ask (.decodeNec (v21.set 0 9301))) = some (.error .invalidAgcMark)
    ∧ answer .decNec (ask (.decodeNec (v21.set 1 4399))) = some (.error .invalidAgcSpace)
    ∧ answer .decNec (ask (.decodeNec ((v21.set 1 2200).set 2 701))) = some (.error .invalidAgcSpace)
    ∧ answer .decNec (ask (.decodeNec (v21.set 51 560))) = some (.error .checksumMismatch)
    ∧ answer .decNec (ask (.decodeNec (v21.set 35 1690))) = some (.error .checksumMismatch)
    ∧ answer .decNec (ask (.decodeNec (List.replicate 66 9000))) = some (.error .invalidPulseCount) := by decide

/-- V40. -/
theorem test_nec_repeat : answer .necRepeat (ask .necRepeat) = some (.ok (.pulses [9200, 2250, 560])) := by decide

/-! ## Frame and symbol rows -/

/-- V6, V25, V30, V32: the frame words of the vectors emit the vectors' pulses. -/
theorem test_sirc_frame_rows :
    answer (.sirc12 18 1) State.reset = some (.ok (.pulses v6))
    ∧ answer (.sirc15 21 151) State.reset = some (.ok (.pulses v25))
    ∧ answer (.sirc20 18 1 74) State.reset = some (.ok (.pulses v30))
    ∧ answer (.sirc23 5 3 7) State.reset = some (.ok (.pulses v32)) := by decide

/-- V20, V21. -/
theorem test_nec_frame_row :
    answer (.nec32 0x02 0x01 0x34 0xCB) State.reset = some (.ok (.pulses v20))
    ∧ answer (.nec32 0x04 0xFB 0x08 0xF7) State.reset = some (.ok (.pulses v21)) := by decide

/-- R68. -/
theorem test_symbol_rows :
    answer .sircBit0 State.reset = some (.ok (.pulses [600, 600]))
    ∧ answer .sircBit1 State.reset = some (.ok (.pulses [1200, 600]))
    ∧ answer .necBit0 State.reset = some (.ok (.pulses [560, 560]))
    ∧ answer .necBit1 State.reset = some (.ok (.pulses [560, 1690])) := by decide

/-! ## The caller -/

/-- P3: the three captures. -/
theorem test_decode_any :
    decodeAny State.reset s7 = .next (answered (.decodeSirc s7) (.ok (.sirc2 18 1)), .command (.sirc2 18 1))
    ∧ decodeAny State.reset [9200, 2250, 560]
      = .next (answered (.decodeNec [9200, 2250, 560]) (.ok .necRpt), .command .necRpt)
    ∧ decodeAny State.reset [2400, 600, 600]
      = .next (answered (.decodeNec [2400, 600, 600]) (.error .invalidAgcMark), .raw [2400, 600, 600]) :=
  ⟨rfl, rfl, rfl⟩

/-- R176: the split is strictly above 10,000. -/
theorem test_capture_split :
    deltas [5, 12, 10012, 20013] = [7, 10000, 10001]
    ∧ captureSplit .dropped [7, 10000, 10001, 3] = [[7, 10000], [3]]
    ∧ captureSplit .endsEarlier [7, 10001, 3] = [[7, 10001], [3]]
    ∧ captureSplit .beginsLater [7, 10001, 3] = [[7], [10001, 3]] := by decide

/-- R180: an interval of 65,536 or more is never an element; one of 65,535 can be. -/
theorem test_capture_split_bars_long_intervals :
    captureSplit .endsEarlier [7, 65536, 3] = [[7], [3]] ∧ captureSplit .beginsLater [7, 70000, 3] = [[7], [3]]
    ∧ captureSplit .endsEarlier [7, 65535, 3] = [[7, 65535], [3]] := by decide

/-- R9: with 17-bit ports a width of 2^17 cannot be presented, however large `MAX_BITS` is. -/
theorem test_width_fits_its_port :
    Config.Params.legal { opw := 17, maxPulses := 2 ^ 18, maxBits := 2 ^ 17 } = true
    ∧ presentable { opw := 17, maxPulses := 2 ^ 18, maxBits := 2 ^ 17 } (Call.valueToPulsesSirc 0 (2 ^ 17)).request = false
    ∧ presentable { opw := 17, maxPulses := 2 ^ 18, maxBits := 2 ^ 17 } (Call.valueToPulsesSirc 0 (2 ^ 17 - 1)).request
        = true := by decide

/-! ## Operands that meet each statement's hypotheses -/

/-- A pending NEC_REPEAT, and the idle state after reset. -/
theorem test_meets_step_runs_the_decoded_operation :
    (ask .necRepeat).pending = true ∧ decode (.request (ask .necRepeat).req.op) = .ok .necRepeat
    ∧ State.reset.pending = false := by decide

/-- Both rows whose well-formedness is more than their shape, at the ends of their ranges. -/
theorem test_meets_decode_of_encode :
    Instr.wf (.sirc23 127 31 255) = true ∧ Instr.wf (.sirc23 0 0 0) = true ∧ Instr.wf (.nec32 255 255 0 255) = true
    ∧ Instr.wf (.nec32 0 0 255 0) = true ∧ Instr.wf (.sirc12 127 31) = true ∧ Instr.wf .necBit1 = true := by decide

theorem test_meets_encode_of_decode :
    decode (.request 8) = .ok .necRepeat ∧ decode (.sircFrame 12 4095) = .ok (.sirc12 127 31)
    ∧ decode (.sircFrame 23 0x7F8FFF) = .ok (.sirc23 127 31 255)
    ∧ decode (.necFrame 32 0xFF00FFFF) = .ok (.nec32 255 255 0 255) ∧ decode (.necSymbol true) = .ok .necBit1 := by decide

/-- SIRC-12 with device 31; SIRC-15 with device 32, and with device 31 and `force8`; SIRC-20 with 31 and 255. -/
theorem test_meets_sirc_frame_words :
    ((ask (.encodeSirc 127 31 none false)).req.command = (127 : BitVec 7).toNat
      ∧ (ask (.encodeSirc 127 31 none false)).req.device = (31 : BitVec 5).toNat
      ∧ (ask (.encodeSirc 127 31 none false)).req.extPresent = false
      ∧ (ask (.encodeSirc 127 31 none false)).req.force8 = false)
    ∧ ((ask (.encodeSirc 0 32 none false)).req.command = (0 : BitVec 7).toNat
      ∧ (ask (.encodeSirc 0 32 none false)).req.device = (32 : BitVec 8).toNat
      ∧ (ask (.encodeSirc 0 32 none false)).req.extPresent = false
      ∧ 2 ^ 5 ≤ (ask (.encodeSirc 0 32 none false)).req.device)
    ∧ ((ask (.encodeSirc 0 31 none true)).req.command = (0 : BitVec 7).toNat
      ∧ (ask (.encodeSirc 0 31 none true)).req.device = (31 : BitVec 8).toNat
      ∧ (ask (.encodeSirc 0 31 none true)).req.extPresent = false
      ∧ (ask (.encodeSirc 0 31 none true)).req.force8 = true)
    ∧ ((ask (.encodeSirc 127 31 (some 255) false)).req.command = (127 : BitVec 7).toNat
      ∧ (ask (.encodeSirc 127 31 (some 255) false)).req.device = (31 : BitVec 5).toNat
      ∧ (ask (.encodeSirc 127 31 (some 255) false)).req.extPresent = true
      ∧ (ask (.encodeSirc 127 31 (some 255) false)).req.ext = (255 : BitVec 8).toNat
      ∧ (ask (.encodeSirc 127 31 (some 255) false)).req.force8 = false) := by decide

theorem test_meets_sirc_frame_rows :
    encode (.sirc12 18 1) = .sircFrame 12 146 ∧ encode (.sirc15 21 151) = .sircFrame 15 0x4B95
    ∧ encode (.sirc20 18 1 74) = .sircFrame 20 0x4A092 ∧ encode (.sirc23 5 3 7) = .sircFrame 23 0x38185 := by decide

/-- One bit, both values, and the four nominal pairs. -/
theorem test_meets_one_bit_is_one_symbol :
    (ask (.valueToPulsesSirc 1 1)).req.width = 1 ∧ (ask (.valueToPulsesSirc 1 1)).req.value % 2 = true.toNat
    ∧ (ask (.valueToPulsesNec 2 1)).req.width = 1 ∧ (ask (.valueToPulsesNec 2 1)).req.value % 2 = false.toNat
    ∧ answer .classify (ask (.classifyPulsePair 600 600)) = some (.ok (.bit false))
    ∧ answer .classify (ask (.classifyPulsePair 600 1200)) = some (.ok (.bit true))
    ∧ answer .classify (ask (.classifyPulsePair 560 560)) = some (.ok (.bit false))
    ∧ answer .classify (ask (.classifyPulsePair 560 1690)) = some (.ok (.bit true)) := by decide

/-- All the hypotheses of the four clauses on one state. -/
theorem test_meets_one_bit_classify_clauses :
    let s : State := State.reset.present { Request.zero with width := 1, value := 1, mark := 600, space := 1200 }
    let n : State := State.reset.present { Request.zero with width := 1, value := 1, mark := 560, space := 1690 }
    s.req.width = 1 ∧ s.req.value % 2 = true.toNat ∧ s.req.mark = 600 ∧ s.req.space = 1200
    ∧ n.req.width = 1 ∧ n.req.value % 2 = true.toNat ∧ n.req.mark = 560 ∧ n.req.space = 1690 := by decide

/-- The first and the last reserved select. -/
theorem test_meets_reserved_selects :
    step (State.reset.placeOp 9) = .refused (.reservedOp 9) ∧ step (State.reset.placeOp 15) = .refused (.reservedOp 15)
    ∧ (State.reset.placeOp 9).pending = true ∧ 9 ≤ (State.reset.placeOp 9).req.op.toNat :=
  ⟨rfl, rfl, rfl, by decide⟩

/-- The first and the last operation. -/
theorem test_meets_every_presented_request :
    (State.reset.placeOp 0).pending = true ∧ (State.reset.placeOp 0).req.op.toNat < 9
    ∧ (State.reset.placeOp 8).pending = true ∧ (State.reset.placeOp 8).req.op.toNat < 9 := by decide

/-- All eighteen constructors end in a next state. -/
theorem test_meets_an_instruction_writes_only_the_response :
    ∀ i ∈ [Instr.b2v, .v2pSirc, .v2pNec, .classify, .encSirc, .decSirc, .encNec, .decNec, .necRepeat, .sirc12 0 0, .sirc15 0 0,
      .sirc20 0 0 0, .sirc23 0 0 0, .nec32 0 0 0 255, .sircBit0, .sircBit1, .necBit0, .necBit1],
      (answer i State.reset).isSome = true := by decide

/-- Two callers interleaved, one of them with an error. -/
theorem test_meets_interleaved_callers :
    (∃ t1 t2, step (State.reset.present Call.necRepeat.request) = .next t1
      ∧ step ((ask (.encodeNec 4 8)).present Call.necRepeat.request) = .next t2)
    ∧ serve State.reset ([(0, Call.necRepeat.request), (1, (Call.decodeSirc []).request),
        (0, (Call.bitsToValue [true]).request)].map Prod.snd)
      = .next (answered (.bitsToValue [true]) (.ok (.value 1)),
          [.ok (.pulses [9200, 2250, 560]), .error .invalidPulseCount, .ok (.value 1)]) :=
  ⟨⟨_, _, rfl, rfl⟩, rfl⟩

/-- Two requests that differ in every field ENC_NEC does not read; and two SIRC requests that differ in an absent `ext`. -/
theorem test_meets_unlisted_fields :
    let a := (Call.encodeNec 4 8).request
    let b : Request := { a with device := 7, ext := 9, force8 := true, value := 3, width := 2, bits := [true], P := [1] }
    let c := (Call.encodeSirc 0 0 none false).request
    sameOperands a b ∧ sameOperands c { c with ext := 999 }
    ∧ ∃ t, step (State.reset.present a) = .next t :=
  ⟨by unfold sameOperands; decide, by unfold sameOperands; decide, _, rfl⟩

/-- A legal state at the smallest legal parameters, and its next state. -/
theorem test_meets_every_step_keeps_the_invariant :
    Config.Params.legal { opw := 17, maxPulses := 67, maxBits := 8 } = true
    ∧ LegalState { opw := 17, maxPulses := 67, maxBits := 8 } (ask (.decodeNec v20))
    ∧ LegalState { opw := 17, maxPulses := 67, maxBits := 8 } (ask (.encodeNec 65536 131071))
    ∧ (∃ t, step (ask (.decodeNec v20)) = .next t) ∧ ∃ t, exec .sircBit1 (ask (.decodeNec v20)) = .next t :=
  ⟨by decide, by unfold LegalState; decide, by unfold LegalState; decide, ⟨_, rfl⟩, ⟨_, rfl⟩⟩

theorem test_meets_valid_rises :
    step State.reset = .next State.reset ∧ ∃ t, step (ask .necRepeat) = .next t := ⟨rfl, _, rfl⟩

/-- An error, after which the next request is served. -/
theorem test_meets_an_error_leaves_nothing_behind :
    ∃ t, step (State.reset.present (Call.decodeSirc []).request) = .next t ∧ t.rsp = .error .invalidPulseCount :=
  ⟨_, rfl, rfl⟩

/-- Every error kind is raised by an instruction that may raise it. -/
theorem test_meets_error_taxonomies :
    answer .encSirc (ask (.encodeSirc 4096 0 none false)) = some (.error .invalidCommand)
    ∧ answer .encSirc (ask (.encodeSirc 0 32 (some 0) false)) = some (.error .invalidDevice)
    ∧ answer .encSirc (ask (.encodeSirc 0 256 none false)) = some (.error .invalidDeviceId)
    ∧ answer .encSirc (ask (.encodeSirc 0 0 (some 256) false)) = some (.error .invalidExtendedDevice)
    ∧ answer .encNec (ask (.encodeNec 65536 0)) = some (.error .invalidAddress)
    ∧ answer .decNec (ask (.decodeNec [])) = some (.error .invalidPulseCount)
    ∧ answer .decSirc (ask (.decodeSirc (v6.set 0 0))) = some (.error .invalidHeader)
    ∧ answer .decNec (ask (.decodeNec [8799, 2200, 560])) = some (.error .invalidAgcMark)
    ∧ answer .decNec (ask (.decodeNec [9000, 3000, 560])) = some (.error .invalidAgcSpace)
    ∧ answer .decNec (ask (.decodeNec (v21.set 51 560))) = some (.error .checksumMismatch) := by decide

/-- R141: the codes of the table, the first and the last. -/
theorem test_meets_status_codes :
    ErrorKind.code .invalidCommand = 1 ∧ ErrorKind.code .checksumMismatch = 10
    ∧ ErrorKind.code .invalidHeader = ErrorKind.code .invalidHeader ∧ (Response.ok .necRpt).status = some 0 := by decide

theorem test_meets_emitted_durations :
    (∃ t, exec .encNec (ask (.encodeNec 4 8)) = .next t ∧ t.rsp = .ok (.pulses v21) ∧ (9000 : Pulse) ∈ v21)
    ∧ ∃ t, exec .necRepeat State.reset = .next t ∧ t.rsp = .ok (.pulses [9200, 2250, 560]) :=
  ⟨⟨_, rfl, by decide, by decide⟩, _, rfl, rfl⟩

theorem test_meets_b2v_clauses :
    (ask (.bitsToValue [])).req.bits = []
    ∧ (ask (.bitsToValue [false, true, false, false, true, false, false])).req.bits = bitsOf (18 + 128) 7 := by decide

/-- Both thresholds from both sides. -/
theorem test_meets_classify_thresholds :
    (∃ t, exec .classify (ask (.classifyPulsePair 600 1050)) = .next t ∧ t.rsp = .ok (.bit false))
    ∧ (∃ t, exec .classify (ask (.classifyPulsePair 600 1051)) = .next t ∧ t.rsp = .ok (.bit true))
    ∧ (∃ t, exec .classify (ask (.classifyPulsePair 560 980)) = .next t ∧ t.rsp = .ok (.bit false))
    ∧ (∃ t, exec .classify (ask (.classifyPulsePair 560 981)) = .next t ∧ t.rsp = .ok (.bit true)) :=
  ⟨⟨_, rfl, by decide⟩, ⟨_, rfl, by decide⟩, ⟨_, rfl, by decide⟩, ⟨_, rfl, by decide⟩⟩

/-- Each clause where its limit begins, the limits before it just kept. -/
theorem test_meets_enc_sirc_errors :
    answer .encSirc (ask (.encodeSirc 4096 0 none false)) = some (.error .invalidCommand)
    ∧ answer .encSirc (ask (.encodeSirc 4095 31 (some 256) false)) = some (.error .invalidExtendedDevice)
    ∧ answer .encSirc (ask (.encodeSirc 4095 32 (some 255) false)) = some (.error .invalidDevice)
    ∧ answer .encSirc (ask (.encodeSirc 4095 256 none false)) = some (.error .invalidDeviceId) := by decide

/-- The hypotheses of the frame statements, in the four cases, at their limits. -/
theorem test_meets_enc_sirc_frame :
    let ok := fun (s : State) (devw extw : Nat) => decide (s.req.command < 2 ^ 12
      ∧ (s.req.extPresent = true → s.req.ext < 2 ^ 8 ∧ s.req.device < 2 ^ 5)
      ∧ (s.req.extPresent = false → s.req.device < 2 ^ 8)
      ∧ devw = (if 2 ^ 5 ≤ s.req.device ∨ s.req.force8 = true then 8 else 5)
      ∧ extw = (if s.req.extPresent then 8 else 0))
    ok (ask (.encodeSirc 4095 31 none false)) 5 0 = true ∧ ok (ask (.encodeSirc 4095 32 none false)) 8 0 = true
    ∧ ok (ask (.encodeSirc 0 255 none false)) 8 0 = true ∧ ok (ask (.encodeSirc 0 0 none true)) 8 0 = true
    ∧ ok (ask (.encodeSirc 4095 31 (some 255) false)) 5 8 = true
    ∧ ok (ask (.encodeSirc 4095 31 (some 255) true)) 8 8 = true := by decide

/-- One request per row, at the largest operands of the row. -/
theorem test_meets_enc_sirc_is_the_frame_row :
    answer .encSirc (ask (.encodeSirc 4095 31 none false)) = answer (.sirc12 127 31) State.reset
    ∧ answer .encSirc (ask (.encodeSirc 4095 255 none false)) = answer (.sirc15 127 255) State.reset
    ∧ answer .encSirc (ask (.encodeSirc 4095 0 none true)) = answer (.sirc15 127 0) State.reset
    ∧ answer .encSirc (ask (.encodeSirc 4095 31 (some 255) false)) = answer (.sirc20 127 31 255) State.reset
    ∧ answer .encSirc (ask (.encodeSirc 4095 31 (some 255) true)) = answer (.sirc23 127 31 255) State.reset := by decide

/-- V23: commands 149 and 21. -/
theorem test_meets_seven_command_bits :
    (ask (.encodeSirc 0x95 1 none false)).req.command < 2 ^ 12 ∧ 0x15 < 2 ^ 12
    ∧ 0x15 % 2 ^ 7 = (ask (.encodeSirc 0x95 1 none false)).req.command % 2 ^ 7
    ∧ answer .encSirc (ask (.encodeSirc 0x95 1 none false)) = answer .encSirc (ask (.encodeSirc 0x15 1 none false)) := by
  decide

/-- V32, and the largest operands. -/
theorem test_meets_force8_with_extended :
    let s := ask (.encodeSirc 4095 31 (some 255) true)
    s.req.command < 2 ^ 12 ∧ s.req.extPresent = true ∧ s.req.ext < 2 ^ 8 ∧ s.req.device < 2 ^ 5 ∧ s.req.force8 = true
    ∧ (ask (.decodeSirc v32)).req.P = v32 := by decide

/-- V6: 12 data bits, three of them 1, sum 18,600. -/
theorem test_meets_sirc_frame_durations :
    (∃ t, exec .encSirc (ask (.encodeSirc 18 1 none false)) = .next t ∧ t.rsp = .ok (.pulses v6))
    ∧ v6.length = 2 * 12 + 1 ∧ (v6.map BitVec.toNat).sum = 18600 ∧ v6.count 1200 = 3 :=
  ⟨⟨_, rfl, by decide⟩, by decide, by decide, by decide⟩

/-- The largest operands: V29 and V31. -/
theorem test_meets_sirc_round_trips :
    let s := ask (.encodeSirc 4095 255 none false)
    let x := ask (.encodeSirc 4095 31 (some 255) false)
    (s.req.command < 2 ^ 12 ∧ s.req.extPresent = false ∧ s.req.device < 2 ^ 8)
    ∧ (x.req.command < 2 ^ 12 ∧ x.req.extPresent = true ∧ x.req.device < 2 ^ 5 ∧ x.req.ext < 2 ^ 8 ∧ x.req.force8 = false)
    ∧ (ask (.decodeSirc v6)).req.P = v6 := by decide

/-- Lengths beside the three good ones, and the header just outside at each good one. -/
theorem test_meets_dec_sirc_errors :
    (∀ n ∈ [0, 24, 26, 30, 32, 40, 42],
      answer .decSirc (ask (.decodeSirc (List.replicate n 2400))) = some (.error .invalidPulseCount))
    ∧ ∀ n ∈ [25, 31, 41],
      answer .decSirc (ask (.decodeSirc (List.replicate n 2199))) = some (.error .invalidHeader)
      ∧ answer .decSirc (ask (.decodeSirc (List.replicate n 2601))) = some (.error .invalidHeader) := by decide

/-- The three lengths, at both ends of the header window. -/
theorem test_meets_dec_sirc_splits :
    (∀ P ∈ [v6.set 0 2200, v25.set 0 2200, v30.set 0 2200, v6.set 0 2600, v25.set 0 2600, v30.set 0 2600],
      2200 ≤ dur (ask (.decodeSirc P)).req.P 0 ∧ dur (ask (.decodeSirc P)).req.P 0 ≤ 2600)
    ∧ v6.length = 25 ∧ v25.length = 31 ∧ v30.length = 41
    ∧ answer .decSirc (ask (.decodeSirc (v6.set 0 2200))) = some (.ok (.sirc2 18 1))
    ∧ answer .decSirc (ask (.decodeSirc (v25.set 0 2600))) = some (.ok (.sirc2 21 151))
    ∧ answer .decSirc (ask (.decodeSirc (v30.set 0 2200))) = some (.ok (.sirc3 18 1 74)) := by decide

/-- The nominal frame and the captured one (S7): different durations, pairs alike. -/
theorem test_meets_dec_sirc_judges_by_ratio :
    (ask (.decodeSirc v6)).req.P.length = (ask (.decodeSirc s7)).req.P.length
    ∧ 2200 ≤ dur v6 0 ∧ dur v6 0 ≤ 2600 ∧ 2200 ≤ dur s7 0 ∧ dur s7 0 ≤ 2600
    ∧ (∀ k < 12, (4 * dur v6 (2 + 2 * k) > 7 * dur v6 (1 + 2 * k) ↔ 4 * dur s7 (2 + 2 * k) > 7 * dur s7 (1 + 2 * k)))
    ∧ (∃ t, exec .decSirc (ask (.decodeSirc v6)) = .next t) ∧ ∃ u, exec .decSirc (ask (.decodeSirc s7)) = .next u :=
  ⟨by decide, by decide, by decide, by decide, by decide, by decide, ⟨_, rfl⟩, ⟨_, rfl⟩⟩

/-- Each clause where its limit begins. -/
theorem test_meets_enc_nec_errors :
    answer .encNec (ask (.encodeNec 0 256)) = some (.error .invalidCommand)
    ∧ answer .encNec (ask (.encodeNec 65536 255)) = some (.error .invalidAddress)
    ∧ answer .encNec (ask (.encodeNec 0x01FE 255)) = some (.error .invalidAddress)
    ∧ 0x01FE % 256 = 255 - 0x01FE / 256 ∧ 0xFF00 % 256 = 255 - 0xFF00 / 256 := by decide

/-- Accepted requests at the limits of both address modes: addresses 0, 255, 256, 65535. -/
theorem test_meets_enc_nec_frame :
    let ok := fun (s : State) (high : Nat) => decide (s.req.command < 2 ^ 8 ∧ s.req.address < 2 ^ 16
      ∧ (2 ^ 8 ≤ s.req.address → s.req.address % 256 ≠ 255 - s.req.address / 256)
      ∧ high = (if s.req.address < 2 ^ 8 then 255 - s.req.address else s.req.address / 256))
    ok (ask (.encodeNec 0 255)) 255 = true ∧ ok (ask (.encodeNec 255 0)) 0 = true ∧ ok (ask (.encodeNec 256 255)) 1 = true
    ∧ ok (ask (.encodeNec 65535 0)) 255 = true := by decide

/-- V35: the bytes of the same requests. -/
theorem test_meets_enc_nec_is_the_frame_row :
    answer .encNec (ask (.encodeNec 0 0)) = answer (.nec32 0x00 0xFF 0x00 0xFF) State.reset
    ∧ answer .encNec (ask (.encodeNec 0xFF 0xFF)) = answer (.nec32 0xFF 0x00 0xFF 0x00) State.reset
    ∧ answer .encNec (ask (.encodeNec 0x0100 0)) = answer (.nec32 0x00 0x01 0x00 0xFF) State.reset
    ∧ answer .encNec (ask (.encodeNec 0x1234 0x56)) = answer (.nec32 0x34 0x12 0x56 0xA9) State.reset := by decide

/-- V35: refused and accepted addresses at the ends of the 16-bit mode, and the largest legacy address. -/
theorem test_meets_ambiguous_addresses :
    answer .encNec (ask (.encodeNec 0x01FE 0)) = some (.error .invalidAddress)
    ∧ answer .encNec (ask (.encodeNec 0xFF00 0)) = some (.error .invalidAddress)
    ∧ answer .encNec (ask (.encodeNec 0x0100 0)) ≠ some (.error .invalidAddress)
    ∧ answer .encNec (ask (.encodeNec 0xFFFF 0)) ≠ some (.error .invalidAddress)
    ∧ answer .encNec (ask (.encodeNec 0xFF 255)) ≠ some (.error .invalidAddress)
    ∧ 0xF0 < 256 ∧ 0x0F < 256 ∧ 0x0F = comp8 0xF0 := by decide

/-- V20 sums to 61,200, V21 (legacy) to 67,980. -/
theorem test_meets_nec_frame_durations :
    (∃ t, exec .encNec (ask (.encodeNec 0x0102 0x34)) = .next t ∧ t.rsp = .ok (.pulses v20))
    ∧ (∃ t, exec .encNec (ask (.encodeNec 4 8)) = .next t ∧ t.rsp = .ok (.pulses v21))
    ∧ (v20.map BitVec.toNat).sum = 61200 ∧ (v21.map BitVec.toNat).sum = 67980
    ∧ (ask (.encodeNec 4 8)).req.address < 2 ^ 8 :=
  ⟨⟨_, rfl, by decide⟩, ⟨_, rfl, by decide⟩, by decide, by decide, by decide⟩

/-- Round trips at the limits of both address modes (V35). -/
theorem test_meets_nec_round_trip :
    answer .decNec (ask (.decodeNec v20)) = some (.ok (.necCmd (BitVec.ofNat 16 0x0102) (BitVec.ofNat 8 0x34)))
    ∧ (∀ a ∈ [0, 255, 256, 65535], a < 2 ^ 16 ∧ (2 ^ 8 ≤ a → a % 256 ≠ 255 - a / 256))
    ∧ (ask (.decodeNec v20)).req.P = v20 := by decide

/-- The first command bit and the last inverted-command bit of V21, flipped. -/
theorem test_meets_nec_checksum :
    (∃ t, exec .encNec (ask (.encodeNec 4 8)) = .next t ∧ t.rsp = .ok (.pulses v21))
    ∧ v21[3 + 2 * 16]? ≠ some 1690 ∧ v21[3 + 2 * 31]? ≠ some 560
    ∧ answer .decNec (ask (.decodeNec (v21.set (3 + 2 * 16) 1690))) = some (.error .checksumMismatch)
    ∧ answer .decNec (ask (.decodeNec (v21.set (3 + 2 * 31) 560))) = some (.error .checksumMismatch) :=
  ⟨⟨_, rfl, by decide⟩, by decide, by decide, by decide, by decide⟩

/-- V40. -/
theorem test_meets_nec_repeat_decodes :
    (∃ t, exec .necRepeat State.reset = .next t ∧ t.rsp = .ok (.pulses [9200, 2250, 560]))
    ∧ (ask (.decodeNec [9200, 2250, 560])).req.P = [9200, 2250, 560] := ⟨⟨_, rfl, rfl⟩, rfl⟩

/-- Each clause at the ends of its windows, for both lengths. -/
theorem test_meets_dec_nec_errors :
    (∀ n ∈ [0, 2, 4, 66, 68], answer .decNec (ask (.decodeNec (List.replicate n 9000))) = some (.error .invalidPulseCount))
    ∧ (∀ P ∈ [[8799, 2200, 560], [9301, 2200, 560], v21.set 0 8799, v21.set 0 9301],
        answer .decNec (ask (.decodeNec P)) = some (.error .invalidAgcMark))
    ∧ (∀ P ∈ [[9200, 2099, 560], [9200, 2301, 560], [9200, 2100, 449], [9200, 2300, 701], [8800, 4399, 560], v21.set 1 4399,
          v21.set 1 4601], answer .decNec (ask (.decodeNec P)) = some (.error .invalidAgcSpace))
    ∧ ∀ P ∈ [[8800, 4400, 560], [9300, 4600, 560], [9000, 4500, 701]],
        answer .decNec (ask (.decodeNec P)) = some (.error .checksumMismatch) := by decide

/-- Both lengths, and all four ends of the repeat windows (V37, V36f). -/
theorem test_meets_repeat_detector :
    (∀ P ∈ [[8800, 2100, 450], [9300, 2300, 700], v21.set 1 2100, v21.set 1 2300],
      (P.length = 3 ∨ P.length = 67) ∧ 8800 ≤ dur P 0 ∧ dur P 0 ≤ 9300
      ∧ answer .decNec (ask (.decodeNec P)) = some (.ok .necRpt))
    ∧ ∀ P ∈ [[9200, 2099, 450], [9200, 2301, 700], [9200, 2100, 449], [9200, 2300, 701]],
      answer .decNec (ask (.decodeNec P)) ≠ some (.ok .necRpt) := by decide

/-- 67 pulses at the ends of both windows; a good checksum in both address modes, and a bad one. -/
theorem test_meets_dec_nec_unpacks :
    (∀ P ∈ [(v21.set 0 8800).set 1 4400, (v21.set 0 9300).set 1 4600],
      P.length = 67 ∧ 8800 ≤ dur P 0 ∧ dur P 0 ≤ 9300 ∧ 4400 ≤ dur P 1 ∧ dur P 1 ≤ 4600
      ∧ answer .decNec (ask (.decodeNec P)) = some (.ok (.necCmd 4 8)))
    ∧ answer .decNec (ask (.decodeNec v20)) = some (.ok (.necCmd 258 52))
    ∧ answer .decNec (ask (.decodeNec (v21.set 65 560))) = some (.error .checksumMismatch) := by decide

/-- V36h. -/
theorem test_meets_trailing_mark :
    (ask (.decodeNec v21)).req.P.length = 67
    ∧ answer .decNec (ask (.decodeNec (v21.set 66 0))) = answer .decNec (ask (.decodeNec v21))
    ∧ answer .decNec (ask (.decodeNec (v21.set 66 65535))) = answer .decNec (ask (.decodeNec v21)) := by decide

/-- V27: low byte 5, high byte 0, command 8, as no encoder makes it. -/
theorem test_meets_two_frames_one_address :
    (∃ t Q, exec (.nec32 5 0 8 (~~~8)) State.reset = .next t ∧ t.rsp = .ok (.pulses Q)
      ∧ answer .decNec (ask (.decodeNec Q)) = some (.ok (.necCmd 5 8)) ∧ (ask (.decodeNec Q)).req.P = Q)
    ∧ ∃ u Q', exec (.nec32 5 (~~~5) 8 (~~~8)) State.reset = .next u ∧ u.rsp = .ok (.pulses Q')
      ∧ answer .decNec (ask (.decodeNec Q')) = some (.ok (.necCmd 5 8)) ∧ (ask (.decodeNec Q')).req.P = Q' :=
  ⟨⟨_, _, rfl, rfl, by decide, rfl⟩, ⟨_, _, rfl, rfl, by decide, rfl⟩⟩

/-- One sequence accepted by DEC_SIRC and answered by DEC_NEC. -/
theorem test_meets_no_sequence_is_accepted_by_both :
    (ask (.decodeSirc v6)).req.P = (ask (.decodeNec v6)).req.P
    ∧ (∃ t, exec .decSirc (ask (.decodeSirc v6)) = .next t ∧ t.rsp = .ok (.sirc2 18 1))
    ∧ ∃ u, exec .decNec (ask (.decodeNec v6)) = .next u ∧ u.rsp = .error .invalidPulseCount :=
  ⟨rfl, ⟨_, rfl, by decide⟩, ⟨_, rfl, by decide⟩⟩

/-- P3: each of the three clauses has a capture that meets it. -/
theorem test_meets_decode_any_clauses :
    (∃ t, step (State.reset.present (Call.decodeSirc s7).request) = .next t ∧ t.rsp = .ok (.sirc2 18 1))
    ∧ (∃ t, step (State.reset.present (Call.decodeNec [9200, 2250, 560]).request) = .next t ∧ t.rsp = .ok .necRpt)
    ∧ (∃ t, step (State.reset.present (Call.decodeSirc [2400, 600, 600]).request) = .next t
      ∧ t.rsp = .error .invalidPulseCount)
    ∧ ∃ t, step (State.reset.present (Call.decodeNec [2400, 600, 600]).request) = .next t
      ∧ t.rsp = .error .invalidAgcMark :=
  ⟨⟨_, rfl, by decide⟩, ⟨_, rfl, rfl⟩, ⟨_, rfl, rfl⟩, ⟨_, rfl, rfl⟩⟩

/-- The optional arguments of R76, absent and present: the fields they stand for. -/
theorem test_meets_every_call_is_answered :
    (ask (.encodeSirc 18 1 none true)).req.extPresent = false ∧ (ask (.encodeSirc 18 1 none true)).req.force8 = true
    ∧ (ask (.encodeSirc 18 1 (some 74) false)).req.extPresent = true ∧ (ask (.encodeSirc 18 1 (some 74) false)).req.ext = 74
    ∧ (ask (.encodeSirc 18 1 (some 74) false)).req.force8 = false ∧ ask .necRepeat = State.reset.present Call.necRepeat.request := by
  decide

/-- The longest interval that is no gap, and gaps at both ends of what a kept gap may be. -/
theorem test_meets_capture_ingestion :
    (∀ d ∈ [9200, 10000], d ≤ 10000) ∧ 10000 < 10001 ∧ 10000 < 65535 ∧ 10000 < 65536
    ∧ (if 65535 < 65536 then [BitVec.ofNat 16 65535] else []) = ([65535] : List Pulse)
    ∧ (if 65536 < 65536 then [BitVec.ofNat 16 65536] else []) = ([] : List Pulse)
    ∧ captureSplit .dropped [9200, 10000] = [[9200, 10000]] ∧ 0 + 1 < [5, 12].length := by decide

end Sys2Proof.Tests
end

section
/-! An instruction reads REQ and nothing else of the state, and its end replaces everything else; so the outcome of a presented
request does not depend on the state it is presented in (R20). -/

namespace Sys2Proof.Proofs

open Sys2Proof Sys2Proof.Machine

/-! ## The end of an operation keeps REQ alone -/

theorem respond_congr {s t : State} (h : s.req = t.req) (r : Response) : s.respond r = t.respond r := by
  simp only [State.respond, h]

theorem finish_congr {s t : State} (h : s.req = t.req) (r : Result) : s.finish r = t.finish r := by
  rw [Laws.finish_eq_respond, Laws.finish_eq_respond, respond_congr h]

theorem finishRead_congr {s t : State} (h : s.req = t.req) (r : Except Fault Result) :
    s.finishRead r = t.finishRead r := by
  cases r with
  | ok q => exact congrArg Host.Outcome.next (finish_congr h q)
  | error f => rfl

/-! ## Instructions and steps -/

/-- Every instruction is a function of REQ: what RSP held, and whether the request waited, do not matter (R20, R55). -/
theorem exec_congr (i : Instr) {s t : State} (h : s.req = t.req) : exec i s = exec i t := by
  obtain ⟨req, p, x⟩ := s
  obtain ⟨_, q, y⟩ := t
  cases h
  cases i with
  | encSirc | encNec => exact congrArg Host.Outcome.next (finish_congr rfl _)
  | decSirc | decNec => exact finishRead_congr rfl _
  | _ => exact congrArg Host.Outcome.next (respond_congr rfl _)

theorem step_of_decode_ok {s : State} {i : Instr} (hp : s.pending = true)
    (hd : decode (.request s.req.op) = .ok i) : step s = exec i s := by
  simp only [step, hp, fetchOp, hd]

theorem step_of_decode_error {s : State} {e : Reject} (hp : s.pending = true)
    (hd : decode (.request s.req.op) = .error e) : step s = .refused (.reservedOp s.req.op) := by
  simp only [step, hp, fetchOp, hd]

/-- Settles O14, by the two outcomes of decoding the request's select: an operation reads REQ alone, and a refusal names the
select alone. -/
theorem responseIsAFunctionOfTheRequest : Obligations.ResponseIsAFunctionOfTheRequest := by
  intro r s1 s2
  cases hd : decode (.request r.op) with
  | ok i =>
    calc step (s1.present r)
        = exec i (s1.present r) := step_of_decode_ok rfl hd
      _ = exec i (s2.present r) := exec_congr i rfl
      _ = step (s2.present r) := (step_of_decode_ok rfl hd).symm
  | error e =>
    calc step (s1.present r)
        = .refused (.reservedOp r.op) := step_of_decode_error rfl hd
      _ = step (s2.present r) := (step_of_decode_error (s := s2.present r) rfl hd).symm

end Sys2Proof.Proofs
end

section
/-! SIRC frames. Fields that follow each other in a frame word follow each other in its pulses, so the pulses ENC_SIRC puts
together field by field (R100, R102) are the frame of one word (R56, R63 to R65). -/

namespace Sys2Proof.Proofs

open Sys2Proof Sys2Proof.Machine

/-! ## Fields of a word -/

/-- A field set above a smaller one is sent after it. -/
theorem bitsOf_add_mul_two_pow {a n : Nat} (h : a < 2 ^ n) (b m : Nat) :
    bitsOf (a + b * 2 ^ n) (n + m) = bitsOf a n ++ bitsOf b m := by
  have hlow : bitsOf (a + b * 2 ^ n) n = bitsOf a n :=
    Laws.bitsOf_congr fun k hk => by
      rw [Nat.add_comm, Nat.mul_comm, Nat.testBit_two_pow_mul_add b h, if_pos hk]
  have hhigh : (a + b * 2 ^ n) >>> n = b := by
    rw [Nat.shiftRight_eq_div_pow, Nat.add_mul_div_right _ _ (Nat.two_pow_pos n), Nat.div_eq_of_lt h, Nat.zero_add]
  rw [Laws.bitsOf_add, hlow, hhigh]

theorem v2pSirc_add_mul_two_pow {a n : Nat} (h : a < 2 ^ n) (b m : Nat) :
    v2pSirc (a + b * 2 ^ n) (n + m) = v2pSirc a n ++ v2pSirc b m := by
  rw [v2pSirc, bitsOf_add_mul_two_pow h, List.flatMap_append, v2pSirc, v2pSirc]

/-! ## The index map of a SIRC frame -/

theorem sircFramePulses_eq (nb W : Nat) : sircFramePulses nb W = (2400 :: 600 :: v2pSirc W nb).dropLast := rfl

theorem sircFramePulses_length (nb W : Nat) : (sircFramePulses nb W).length = 2 * nb + 1 := by
  simp [sircFramePulses_eq, Laws.v2pSirc_length]

/-- R56: element `i` of the serialized word is pulse `2 + i`, the dropped last space aside. -/
theorem sircFramePulses_getElem? {nb i : Nat} (W : Nat) (hi : i + 1 < 2 * nb) :
    (sircFramePulses nb W)[2 + i]? = (v2pSirc W nb)[i]? := by
  have hin : 2 + i < (2400 :: 600 :: v2pSirc W nb).length - 1 := by
    simp only [List.length_cons, Laws.v2pSirc_length]
    omega
  rw [sircFramePulses_eq, List.getElem?_dropLast, if_pos hin, Nat.add_comm]
  rfl

theorem sircFramePulses_mark {nb k : Nat} (W : Nat) (hk : k < nb) :
    (sircFramePulses nb W)[2 + 2 * k]? = some (if W.testBit k then 1200 else 600) := by
  rw [sircFramePulses_getElem? W (by omega), Laws.v2pSirc_mark W nb k hk]

/-! ## ENC_SIRC sends the frame of one word -/

theorem sircDeviceWidth_short {device : Nat} (hd : device < 2 ^ 5) : sircDeviceWidth device false = 5 := by
  rw [Laws.sircDeviceWidth_eq, if_neg (by simpa using hd)]

theorem sircDeviceWidth_long {device : Nat} {force8 : Bool} (h : 2 ^ 5 ≤ device ∨ force8 = true) :
    sircDeviceWidth device force8 = 8 :=
  if_pos h

/-- Without an extended device the frame holds the command and the device, as wide as R103 makes it. -/
theorem sircPulses_eq_frame {command : Nat} (hc : command < 2 ^ 7) (device ext : Nat) (force8 : Bool) :
    sircPulses command device false ext force8
      = sircFramePulses (7 + sircDeviceWidth device force8) (command + device * 2 ^ 7) := by
  have hmask : command &&& Const.sircCmdMask = command := Nat.and_two_pow_sub_one_of_lt_two_pow hc
  rw [sircFramePulses, v2pSirc_add_mul_two_pow hc, sircPulses, hmask]
  simp [Const.sircCmdBits]

/-- With one, the extended device follows (R65; R75 where the device field has 8 bits). -/
theorem sircPulses_extended_eq_frame {command device : Nat} {force8 : Bool} (hc : command < 2 ^ 7)
    (hd : device < 2 ^ sircDeviceWidth device force8) (ext : Nat) :
    sircPulses command device true ext force8
      = sircFramePulses (7 + sircDeviceWidth device force8 + 8)
          (command + device * 2 ^ 7 + ext * 2 ^ (7 + sircDeviceWidth device force8)) := by
  have hmask : command &&& Const.sircCmdMask = command := Nat.and_two_pow_sub_one_of_lt_two_pow hc
  have hlow : command + device * 2 ^ 7 < 2 ^ (7 + sircDeviceWidth device force8) := by
    rw [Nat.pow_add]
    omega
  rw [sircFramePulses, v2pSirc_add_mul_two_pow hlow, v2pSirc_add_mul_two_pow hc, sircPulses, hmask]
  simp [Const.sircCmdBits, Const.sircExtBits]

theorem sircCheck_accepts {command device : Nat} (hc : command < 4096) (hd : device < 256) (ext : Nat) :
    sircCheck command device false ext = none := by
  rw [Laws.sircCheck_eq, if_neg (Nat.not_le.mpr hc), if_neg Bool.false_ne_true, if_neg (Nat.not_le.mpr hd)]

theorem sircCheck_accepts_extended {command device ext : Nat} (hc : command < 4096) (hd : device < 32)
    (he : ext < 256) : sircCheck command device true ext = none := by
  rw [Laws.sircCheck_eq, if_neg (Nat.not_le.mpr hc), if_pos rfl, if_neg (Nat.not_le.mpr he), if_neg (Nat.not_le.mpr hd)]

theorem exec_encSirc_of_check {s : State}
    (hcheck : sircCheck s.req.command s.req.device s.req.extPresent s.req.ext = none) :
    exec .encSirc s = .next (s.succeed
      (.pulses (sircPulses s.req.command s.req.device s.req.extPresent s.req.ext s.req.force8))) := by
  show Host.Outcome.next (s.finish (encodeSirc _ _ _ _ _)) = _
  rw [encodeSirc, hcheck]
  rfl

/-- An accepted request whose pulses are those of a frame word is answered with that word's index map. -/
theorem encSirc_sends_frame {s : State} {nb W : Nat}
    (hcheck : sircCheck s.req.command s.req.device s.req.extPresent s.req.ext = none)
    (hframe : sircPulses s.req.command s.req.device s.req.extPresent s.req.ext s.req.force8 = sircFramePulses nb W) :
    ∃ Q, exec .encSirc s = .next { s with rsp := .ok (.pulses Q), pending := false } ∧ Q.length = 2 * nb + 1
      ∧ ∀ k < nb, Q[2 + 2 * k]? = some (if W.testBit k then 1200 else 600) := by
  refine ⟨sircFramePulses nb W, ?_, sircFramePulses_length nb W, fun k hk => sircFramePulses_mark W hk⟩
  rw [exec_encSirc_of_check hcheck, hframe]
  rfl

/-! ## The three formats -/

theorem encSirc_sends_sirc12 (c : BitVec 7) (d : BitVec 5) {s : State} (hc : s.req.command = c.toNat)
    (hd : s.req.device = d.toNat) (hx : s.req.extPresent = false) (hf : s.req.force8 = false) :
    ∃ Q, exec .encSirc s = .next { s with rsp := .ok (.pulses Q), pending := false } ∧ Q.length = 25
      ∧ ∀ k < 12, Q[2 + 2 * k]? = some (if (sirc12Word c d).testBit k then 1200 else 600) := by
  apply encSirc_sends_frame (nb := 12)
  · rw [hc, hd, hx, sircCheck_accepts (by omega) (by omega)]
  · rw [hc, hd, hx, hf, sircPulses_eq_frame c.isLt, sircDeviceWidth_short d.isLt, Laws.sirc12Word_eq]

theorem encSirc_sends_sirc15 (c : BitVec 7) (d : BitVec 8) {s : State} (hc : s.req.command = c.toNat)
    (hd : s.req.device = d.toNat) (hx : s.req.extPresent = false)
    (hw : 2 ^ 5 ≤ s.req.device ∨ s.req.force8 = true) :
    ∃ Q, exec .encSirc s = .next { s with rsp := .ok (.pulses Q), pending := false } ∧ Q.length = 31
      ∧ ∀ k < 15, Q[2 + 2 * k]? = some (if (sirc15Word c d).testBit k then 1200 else 600) := by
  apply encSirc_sends_frame (nb := 15)
  · rw [hc, hd, hx, sircCheck_accepts (by omega) d.isLt]
  · rw [hx, sircPulses_eq_frame (hc ▸ c.isLt), sircDeviceWidth_long hw, hc, hd, Laws.sirc15Word_eq]

theorem encSirc_sends_sirc20 (c : BitVec 7) (d : BitVec 5) (e : BitVec 8) {s : State} (hc : s.req.command = c.toNat)
    (hd : s.req.device = d.toNat) (hx : s.req.extPresent = true) (he : s.req.ext = e.toNat)
    (hf : s.req.force8 = false) :
    ∃ Q, exec .encSirc s = .next { s with rsp := .ok (.pulses Q), pending := false } ∧ Q.length = 41
      ∧ ∀ k < 20, Q[2 + 2 * k]? = some (if (sirc20Word c d e).testBit k then 1200 else 600) := by
  have hwidth := sircDeviceWidth_short d.isLt
  apply encSirc_sends_frame (nb := 20)
  · rw [hc, hd, hx, he, sircCheck_accepts_extended (by omega) d.isLt e.isLt]
  · rw [hc, hd, hx, he, hf, sircPulses_extended_eq_frame c.isLt (hwidth.symm ▸ d.isLt), hwidth, Laws.sirc20Word_eq]

/-- Settles O5, one format after another: the word is the sum of its fields, each set above the ones before it, so both its bits
and the pulses ENC_SIRC sends are the fields' one after the other. -/
theorem sircFrameWordsSendTheirFieldsInOrder : Obligations.SircFrameWordsSendTheirFieldsInOrder := by
  refine ⟨fun c d => ?_, fun c d => ?_, fun c d e => ?_⟩
  · have hbits : bitsOf (sirc12Word c d) 12 = bitsOf c.toNat 7 ++ bitsOf d.toNat 5 := by
      rw [Laws.sirc12Word_eq, bitsOf_add_mul_two_pow (m := 5) c.isLt]
    exact ⟨sirc12Word c d, rfl, (Laws.EncodingFits.sirc12 c d).2, Laws.sirc12Word_eq c d, hbits,
      fun s hc hd hx hf => encSirc_sends_sirc12 c d hc hd hx hf⟩
  · have hbits : bitsOf (sirc15Word c d) 15 = bitsOf c.toNat 7 ++ bitsOf d.toNat 8 := by
      rw [Laws.sirc15Word_eq, bitsOf_add_mul_two_pow (m := 8) c.isLt]
    exact ⟨sirc15Word c d, rfl, (Laws.EncodingFits.sirc15 c d).2, Laws.sirc15Word_eq c d, hbits,
      fun s hc hd hx hw => encSirc_sends_sirc15 c d hc hd hx hw⟩
  · have hlow : c.toNat + d.toNat * 2 ^ 7 < 2 ^ 12 :=
      Laws.sirc12Word_eq c d ▸ (Laws.EncodingFits.sirc12 c d).2
    have hbits : bitsOf (sirc20Word c d e) 20 = bitsOf c.toNat 7 ++ bitsOf d.toNat 5 ++ bitsOf e.toNat 8 := by
      rw [Laws.sirc20Word_eq, bitsOf_add_mul_two_pow (m := 8) hlow, bitsOf_add_mul_two_pow (m := 5) c.isLt]
    exact ⟨sirc20Word c d e, rfl, (Laws.EncodingFits.sirc20 c d e).2, Laws.sirc20Word_eq c d e, hbits,
      fun s hc hd hx he hf => encSirc_sends_sirc20 c d e hc hd hx he hf⟩

end Sys2Proof.Proofs
end

section
/-! How long an emitted duration can be (R41). Nothing but NEC_REPEAT emits more than a NEC frame's AGC mark of 9000. -/

namespace Sys2Proof.Proofs

open Sys2Proof Sys2Proof.Machine

/-- No duration of the sequence is over `n`. -/
def DurationsAtMost (n : Nat) (Q : List Pulse) : Prop :=
  ∀ v ∈ Q, v.toNat ≤ n

/-! ## Sequences -/

theorem durationsAtMost_append {n : Nat} {Q R : List Pulse} :
    DurationsAtMost n (Q ++ R) ↔ DurationsAtMost n Q ∧ DurationsAtMost n R :=
  List.forall_mem_append

theorem DurationsAtMost.dropLast {n : Nat} {Q : List Pulse} (h : DurationsAtMost n Q) : DurationsAtMost n Q.dropLast :=
  fun v hv => h v (List.mem_of_mem_dropLast hv)

theorem sircSymbol_durations (b : Bool) : DurationsAtMost 9000 (sircSymbol b) := by
  cases b <;> simp [DurationsAtMost, Laws.sircSymbol_eq]

theorem necSymbol_durations (b : Bool) : DurationsAtMost 9000 (necSymbol b) := by
  cases b <;> simp [DurationsAtMost, Laws.necSymbol_eq]

theorem flatMap_durations {n : Nat} {f : Bool → List Pulse} (h : ∀ b, DurationsAtMost n (f b)) (bs : List Bool) :
    DurationsAtMost n (bs.flatMap f) := by
  intro v hv
  obtain ⟨b, -, hb⟩ := List.mem_flatMap.mp hv
  exact h b v hb

theorem v2pSirc_durations (v w : Nat) : DurationsAtMost 9000 (v2pSirc v w) :=
  flatMap_durations sircSymbol_durations _

theorem v2pNec_durations (v w : Nat) : DurationsAtMost 9000 (v2pNec v w) :=
  flatMap_durations necSymbol_durations _

theorem sircHeader_durations : DurationsAtMost 9000 [Const.sircHdrMark, Const.sircHdrSpace] := by
  simp [DurationsAtMost, Const.sircHdrMark, Const.sircHdrSpace]

theorem necAgc_durations : DurationsAtMost 9000 [Const.necAgcMark, Const.necAgcSpace] := by
  simp [DurationsAtMost, Const.necAgcMark, Const.necAgcSpace]

theorem necTrailMark_durations : DurationsAtMost 9000 [Const.necTrailMark] := by
  simp [DurationsAtMost, Const.necTrailMark]

theorem necRepeat_durations : DurationsAtMost 9200 Const.necRepeat := by
  simp [DurationsAtMost, Const.necRepeat]

theorem sircFramePulses_durations (nb W : Nat) : DurationsAtMost 9000 (sircFramePulses nb W) :=
  (durationsAtMost_append.mpr ⟨sircHeader_durations, v2pSirc_durations W nb⟩).dropLast

theorem sircPulses_durations (command device : Nat) (extPresent : Bool) (ext : Nat) (force8 : Bool) :
    DurationsAtMost 9000 (sircPulses command device extPresent ext force8) := by
  apply DurationsAtMost.dropLast
  refine durationsAtMost_append.mpr ⟨?_, ?_⟩
  · simp only [durationsAtMost_append, sircHeader_durations, v2pSirc_durations, and_self]
  · cases extPresent with
    | false => exact fun v hv => absurd hv List.not_mem_nil
    | true => exact v2pSirc_durations ext _

theorem necFramePulses_durations (W : Nat) : DurationsAtMost 9000 (necFramePulses W) := by
  simp only [necFramePulses, durationsAtMost_append, necAgc_durations, v2pNec_durations, necTrailMark_durations, and_self]

theorem necPulses_durations (address command : Nat) : DurationsAtMost 9000 (necPulses address command) := by
  simp only [necPulses, durationsAtMost_append, necAgc_durations, v2pNec_durations, necTrailMark_durations, and_self]

/-! ## Which results carry pulses -/

theorem finish_pulses {s : State} {r : Result} {Q : List Pulse} (h : (s.finish r).rsp = .ok (.pulses Q)) :
    r = .ok (.pulses Q) := by
  cases r with
  | ok v => cases h; rfl
  | raise k => cases h

theorem encodeSirc_pulses {command device ext : Nat} {extPresent force8 : Bool} {Q : List Pulse}
    (h : encodeSirc command device extPresent ext force8 = .ok (.pulses Q)) :
    Q = sircPulses command device extPresent ext force8 := by
  unfold encodeSirc at h
  split at h
  · cases h
  · cases h; rfl

theorem encodeNec_pulses {address command : Nat} {Q : List Pulse} (h : encodeNec address command = .ok (.pulses Q)) :
    Q = necPulses address command := by
  unfold encodeNec at h
  split at h
  · cases h
  · cases h; rfl

theorem sircFields_ne_pulses (n : Nat) (b : List Bool) (Q : List Pulse) : sircFields n b ≠ .pulses Q := by
  unfold sircFields
  split
  · exact Success.noConfusion
  · dsimp only
    split <;> exact Success.noConfusion

theorem necFields_ne_pulses (b : List Bool) (Q : List Pulse) : necFields b ≠ .ok (.pulses Q) := by
  unfold necFields
  dsimp only
  split <;> simp

theorem decodeSirc_ne_pulses (P Q : List Pulse) : decodeSirc P ≠ .ok (.ok (.pulses Q)) := by
  rw [Laws.decodeSirc_eq]
  split_ifs <;> simp [sircFields_ne_pulses]

theorem decodeNec_ne_pulses (P Q : List Pulse) : decodeNec P ≠ .ok (.ok (.pulses Q)) := by
  rw [Laws.decodeNec_eq]
  split_ifs <;> simp [necFields_ne_pulses]

theorem finishRead_pulses {s t : State} {r : Except Fault Result} {Q : List Pulse} (h : s.finishRead r = .next t)
    (hQ : t.rsp = .ok (.pulses Q)) : r = .ok (.ok (.pulses Q)) := by
  obtain ⟨q, rfl, rfl⟩ := Laws.finishRead_next h
  rw [finish_pulses hQ]

/-! ## Every instruction -/

theorem exec_durations {i : Instr} (hi : i ≠ .necRepeat) {s t : State} {Q : List Pulse} (h : exec i s = .next t)
    (hQ : t.rsp = .ok (.pulses Q)) : DurationsAtMost 9000 Q := by
  cases i with
  | b2v | classify => cases h; cases hQ
  | v2pSirc => cases h; cases hQ; exact v2pSirc_durations _ _
  | v2pNec => cases h; cases hQ; exact v2pNec_durations _ _
  | encSirc => cases h; exact encodeSirc_pulses (finish_pulses hQ) ▸ sircPulses_durations _ _ _ _ _
  | encNec => cases h; exact encodeNec_pulses (finish_pulses hQ) ▸ necPulses_durations _ _
  | decSirc => exact absurd (finishRead_pulses h hQ) (decodeSirc_ne_pulses _ _)
  | decNec => exact absurd (finishRead_pulses h hQ) (decodeNec_ne_pulses _ _)
  | necRepeat => exact absurd rfl hi
  | sirc12 | sirc15 | sirc20 | sirc23 => cases h; cases hQ; exact sircFramePulses_durations _ _
  | nec32 => cases h; cases hQ; exact necFramePulses_durations _
  | sircBit0 | sircBit1 => cases h; cases hQ; exact sircSymbol_durations _
  | necBit0 | necBit1 => cases h; cases hQ; exact necSymbol_durations _

theorem exec_necRepeat (s : State) : exec .necRepeat s = .next (s.succeed (.pulses [9200, 2250, 560])) := rfl

theorem agcMark_mem_necPulses (address command : Nat) : (9000 : Pulse) ∈ necPulses address command :=
  List.mem_cons_self

/-- Settles O24: NEC_REPEAT's three durations, and for every other instruction the 9000 of a NEC frame's AGC mark, which
ENC_NEC emits for address 4 and command 8. -/
theorem emittedDurationsAreBounded : Obligations.EmittedDurationsAreBounded := by
  refine ⟨?_, ?_, ?_⟩
  · intro i s t Q h hQ v hv
    by_cases hi : i = .necRepeat
    · subst hi
      cases h
      cases hQ
      exact ⟨necRepeat_durations v hv, by simp⟩
    · have hv9000 : v.toNat ≤ 9000 := exec_durations hi h hQ v hv
      exact ⟨by omega, fun _ => hv9000⟩
  · exact fun s => ⟨_, _, exec_necRepeat s, rfl, List.mem_cons_self⟩
  · exact ⟨State.reset.present (Call.encodeNec 4 8).request, _, _, rfl, rfl, agcMark_mem_necPulses 4 8⟩

end Sys2Proof.Proofs
end

section
/-! Calls and their answers. Every call selects an operation, and every instruction ends in a response to the request it was
given: no read of a decoder leaves its sequence (R45, R76). -/

namespace Sys2Proof.Proofs

open Sys2Proof Sys2Proof.Machine

/-! ## Every instruction answers -/

/-- A response to a request is a result or an error (R22). -/
theorem valid_iff {r : Response} : r.valid = true ↔ (∃ v, r = .ok v) ∨ ∃ k, r = .error k := by
  cases r <;> simp [Response.valid]

theorem finish_responds (s : State) (r : Result) : ∃ q : Response, q.valid = true ∧ s.finish r = s.respond q := by
  cases r with
  | ok v => exact ⟨.ok v, rfl, rfl⟩
  | raise k => exact ⟨.error k, rfl, rfl⟩

theorem finishRead_responds (s : State) {r : Except Fault Result} {q : Result} (h : r = .ok q) :
    ∃ a : Response, a.valid = true ∧ s.finishRead r = .next (s.respond a) := by
  obtain ⟨a, ha, hs⟩ := finish_responds s q
  exact ⟨a, ha, h ▸ congrArg Host.Outcome.next hs⟩

/-- Every instruction ends, in every state, by replacing RSP with a result or an error. -/
theorem exec_responds (i : Instr) (s : State) :
    ∃ a : Response, a.valid = true ∧ exec i s = .next (s.respond a) := by
  cases i with
  | encSirc | encNec =>
    obtain ⟨a, ha, hs⟩ := finish_responds s _
    exact ⟨a, ha, congrArg Host.Outcome.next hs⟩
  | decSirc => exact finishRead_responds s (Laws.decodeSirc_eq s.req.P)
  | decNec => exact finishRead_responds s (Laws.decodeNec_eq s.req.P)
  | _ => exact ⟨_, rfl, rfl⟩

/-! ## Every call selects its operation -/

/-- The operation R76 names for a call. -/
def callOperation : Call → Instr
  | .bitsToValue _ => .b2v
  | .valueToPulsesSirc _ _ => .v2pSirc
  | .valueToPulsesNec _ _ => .v2pNec
  | .classifyPulsePair _ _ => .classify
  | .encodeSirc _ _ _ _ => .encSirc
  | .decodeSirc _ => .decSirc
  | .encodeNec _ _ => .encNec
  | .decodeNec _ => .decNec
  | .necRepeat => .necRepeat

theorem decode_call_op (c : Call) : decode (.request c.request.op) = .ok (callOperation c) := by
  cases c <;> rfl

theorem step_present_call (s : State) (c : Call) :
    step (s.present c.request) = exec (callOperation c) (s.present c.request) :=
  step_of_decode_ok rfl (decode_call_op c)

theorem call_answered (s : State) (c : Call) :
    ∃ a : Response, a.valid = true ∧ step (s.present c.request) = .next ((s.present c.request).respond a) := by
  rw [step_present_call]
  exact exec_responds _ _

theorem call_ends (s : State) (c : Call) : ∃ t, step (s.present c.request) = .next t := by
  obtain ⟨_, -, h⟩ := call_answered s c
  exact ⟨_, h⟩

/-- Settles O59: one step runs the call's operation, which always answers, and the fields are those the call wrote. -/
theorem everyCallIsAnswered : Obligations.EveryCallIsAnswered := by
  intro s
  refine ⟨?answered, ?b2v, ?v2pSirc, ?v2pNec, ?classify, ?encSirc, ?encSircExt, ?decSirc, ?encNec, ?decNec, ?necRepeat⟩
  case answered =>
    rintro call _ rfl
    obtain ⟨a, ha, hstep⟩ := call_answered s call
    exact ⟨a, valid_iff.mp ha, hstep⟩
  case b2v | decSirc | decNec =>
    rintro _ _ rfl
    exact ⟨step_present_call s _, rfl⟩
  case v2pSirc | v2pNec | classify | encNec =>
    rintro _ _ _ rfl
    exact ⟨step_present_call s _, rfl, rfl⟩
  case encSirc =>
    rintro _ _ _ _ rfl
    exact ⟨step_present_call s _, rfl, rfl, rfl, rfl⟩
  case encSircExt =>
    rintro _ _ _ _ _ rfl
    exact ⟨step_present_call s _, rfl, rfl, rfl, rfl, rfl⟩
  case necRepeat =>
    rintro _ rfl
    exact step_present_call s _

end Sys2Proof.Proofs
end

section
/-! DECODE_ANY. The two decoders accept sequences of different lengths (R71), and DEC_NEC answers alike wherever it is asked, so
DECODE_ANY gives what the one that accepts gives (R77). -/

namespace Sys2Proof.Proofs

open Sys2Proof Sys2Proof.Machine

/-! ## What a decoder accepts -/

theorem finish_rsp_ok {s : State} {r : Result} {v : Success} (h : (s.finish r).rsp = .ok v) : r = .ok v := by
  cases r with
  | ok w => cases h; rfl
  | raise k => cases h

theorem finishRead_rsp_ok {s t : State} {r : Except Fault Result} {v : Success} (h : s.finishRead r = .next t)
    (hv : t.rsp = .ok v) : r = .ok (.ok v) := by
  obtain ⟨q, rfl, rfl⟩ := Laws.finishRead_next h
  rw [finish_rsp_ok hv]

theorem decodeSirc_ok_length {P : List Pulse} {v : Success} (h : decodeSirc P = .ok (.ok v)) :
    P.length ∈ [25, 31, 41] := by
  by_contra hn
  rw [Laws.decodeSirc_eq, if_pos hn] at h
  cases h

theorem decodeNec_ok_length {P : List Pulse} {v : Success} (h : decodeNec P = .ok (.ok v)) : P.length ∈ [3, 67] := by
  by_contra hn
  rw [Laws.decodeNec_eq, if_pos hn] at h
  cases h

/-- R71: no sequence has a length of both protocols. -/
theorem decNec_rejects_of_decSirc_accepts {a b t u : State} {v : Success} (hP : a.req.P = b.req.P)
    (ha : exec .decSirc a = .next t) (hb : exec .decNec b = .next u) (hv : t.rsp = .ok v) (w : Success) :
    u.rsp ≠ .ok w := by
  intro hw
  have hsirc : a.req.P.length ∈ [25, 31, 41] := decodeSirc_ok_length (finishRead_rsp_ok ha hv)
  have hnec : b.req.P.length ∈ [3, 67] := decodeNec_ok_length (finishRead_rsp_ok hb hw)
  rw [← hP] at hnec
  simp only [List.mem_cons, List.not_mem_nil, or_false] at hsirc hnec
  omega

/-! ## DECODE_ANY, one equation per outcome of a decoder -/

theorem accepted_eq_some_iff {r : Response} {v : Success} : r.accepted = some v ↔ r = .ok v := by
  cases r <;> simp [Response.accepted]

theorem accepted_eq_none_iff {r : Response} : r.accepted = none ↔ ∀ v, r ≠ .ok v := by
  cases r <;> simp [Response.accepted]

theorem decodeAny_of_sirc_accepts {s t : State} {P : List Pulse} {v : Success}
    (h : step (s.present (Call.decodeSirc P).request) = .next t) (hv : t.rsp = .ok v) :
    decodeAny s P = .next (t, .command v) := by
  simp only [decodeAny, h, accepted_eq_some_iff.mpr hv]

theorem decodeAny_of_sirc_rejects {s t : State} {P : List Pulse}
    (h : step (s.present (Call.decodeSirc P).request) = .next t) (hv : ∀ v, t.rsp ≠ .ok v) :
    decodeAny s P = decodeAnyNec t P := by
  simp only [decodeAny, h, accepted_eq_none_iff.mpr hv]

theorem decodeAnyNec_of_accepts {s t : State} {P : List Pulse} {v : Success}
    (h : step (s.present (Call.decodeNec P).request) = .next t) (hv : t.rsp = .ok v) :
    decodeAnyNec s P = .next (t, .command v) := by
  simp only [decodeAnyNec, h, accepted_eq_some_iff.mpr hv]

theorem decodeAnyNec_of_rejects {s t : State} {P : List Pulse}
    (h : step (s.present (Call.decodeNec P).request) = .next t) (hv : ∀ v, t.rsp ≠ .ok v) :
    decodeAnyNec s P = .next (t, .raw P) := by
  simp only [decodeAnyNec, h, accepted_eq_none_iff.mpr hv]

/-- Settles O58, by which decoder accepts: if DEC_SIRC does, DEC_NEC does not; if DEC_SIRC does not, DEC_NEC is asked after it and
answers as it would have before. -/
theorem decodeAnyReturnsTheAcceptingDecoder : Obligations.DecodeAnyReturnsTheAcceptingDecoder := by
  intro s P
  obtain ⟨t1, h1⟩ := call_ends s (.decodeSirc P)
  obtain ⟨t2, h2⟩ := call_ends s (.decodeNec P)
  have hafter : step (t1.present (Call.decodeNec P).request) = .next t2 :=
    (responseIsAFunctionOfTheRequest _ t1 s).trans h2
  cases hsirc : t1.rsp.accepted with
  | some v =>
    have hv : t1.rsp = .ok v := accepted_eq_some_iff.mp hsirc
    have hnec : ∀ w, t2.rsp ≠ .ok w := decNec_rejects_of_decSirc_accepts
      (a := s.present (Call.decodeSirc P).request) (b := s.present (Call.decodeNec P).request) rfl
      ((step_present_call s _).symm.trans h1) ((step_present_call s _).symm.trans h2) hv
    refine ⟨t1, t2, t1, .command v, h1, h2, decodeAny_of_sirc_accepts h1 hv, ?_, ?_, ?_⟩
    · intro w hw
      cases hv.symm.trans hw
      rfl
    · exact fun w hw => absurd hw (hnec w)
    · exact fun hno _ => absurd hv (hno v)
  | none =>
    have hno : ∀ v, t1.rsp ≠ .ok v := accepted_eq_none_iff.mp hsirc
    have hany : decodeAny s P = decodeAnyNec t1 P := decodeAny_of_sirc_rejects h1 hno
    cases hnec : t2.rsp.accepted with
    | some w =>
      have hw : t2.rsp = .ok w := accepted_eq_some_iff.mp hnec
      refine ⟨t1, t2, t2, .command w, h1, h2, hany.trans (decodeAnyNec_of_accepts hafter hw), ?_, ?_, ?_⟩
      · exact fun v hv => absurd hv (hno v)
      · intro x hx
        cases hw.symm.trans hx
        rfl
      · exact fun _ hno2 => absurd hw (hno2 w)
    | none =>
      have hno2 : ∀ v, t2.rsp ≠ .ok v := accepted_eq_none_iff.mp hnec
      refine ⟨t1, t2, t2, .raw P, h1, h2, hany.trans (decodeAnyNec_of_rejects hafter hno2), ?_, ?_, ?_⟩
      · exact fun v hv => absurd hv (hno v)
      · exact fun v hv => absurd hv (hno2 v)
      · exact fun _ _ => rfl

end Sys2Proof.Proofs
end

section
/-! The bit/pulse primitives (40_primitives.md). B2V and the two serializers go between a number and its bits, the
least significant first; CLASSIFY compares two durations exactly. -/

namespace Sys2Proof.Proofs

open Sys2Proof Sys2Proof.Machine

/-! ## What each primitive answers -/

theorem exec_b2v (s : State) : exec .b2v s = .next (s.succeed (.value (valueOf s.req.bits))) := rfl

theorem exec_v2pSirc (s : State) :
    exec .v2pSirc s = .next (s.succeed (.pulses (v2pSirc s.req.value s.req.width))) := rfl

theorem exec_v2pNec (s : State) :
    exec .v2pNec s = .next (s.succeed (.pulses (v2pNec s.req.value s.req.width))) := rfl

theorem exec_classify (s : State) :
    exec .classify s = .next (s.succeed (.bit (classifyPair s.req.mark s.req.space))) := rfl

/-! ## The value of a bit sequence -/

/-- R90's sum: the recursion doubles the value of the tail, so each of its weights is one power higher. -/
theorem valueOf_eq_sum (bs : List Bool) :
    valueOf bs = ((List.range bs.length).map fun i => (bs.getD i false).toNat * 2 ^ i).sum := by
  induction bs with
  | nil => rfl
  | cons b bs ih =>
    have hweight : ∀ i, (bs.getD i false).toNat * 2 ^ (i + 1) = 2 * ((bs.getD i false).toNat * 2 ^ i) := fun i => by
      rw [Nat.pow_succ', Nat.mul_left_comm]
    rw [Laws.valueOf_cons, ih, List.length_cons, List.range_succ_eq_map]
    simp only [List.map_cons, List.map_map, List.sum_cons, Function.comp_def, Nat.succ_eq_add_one, List.getD_cons_zero,
      List.getD_cons_succ, hweight, List.sum_map_mul_left, Nat.pow_zero, Nat.mul_one]

/-- Zero bits at the significant end add nothing, since a bit beyond the end of a sequence counts as 0 anyway. -/
theorem valueOf_append_replicate_false (bs : List Bool) (n : Nat) :
    valueOf (bs ++ List.replicate n false) = valueOf bs := by
  refine Laws.valueOf_ext fun k => ?_
  rw [Laws.valueOf_testBit]
  obtain hk | hk := Nat.lt_or_ge k bs.length
  · exact List.getD_append _ _ _ _ hk
  · rw [List.getD_append_right _ _ _ _ hk, List.getD_eq_default _ _ hk]
    exact List.getElem?_getD_replicate_default_eq _ _ _

/-- Settles O25: the value is R90's sum, and zero bits appended to the request's sequence leave it as it is. -/
theorem b2vIsTheLsbFirstSum : Obligations.B2vIsTheLsbFirstSum := by
  intro s
  refine ⟨valueOf s.req.bits, exec_b2v s, valueOf_eq_sum _, ?empty, Laws.valueOf_lt _, ?padded⟩
  case empty =>
    intro h
    rw [h, Laws.valueOf_nil]
  case padded =>
    intro n
    rw [exec_b2v, valueOf_append_replicate_false]
    rfl

/-! ## The serializers -/

/-- Settles O27, from the length, the marks and the spaces of a SIRC serialization. -/
theorem v2pSircEmitsOnePairPerBit : Obligations.V2pSircEmitsOnePairPerBit := fun s =>
  ⟨v2pSirc s.req.value s.req.width, exec_v2pSirc s, Laws.v2pSirc_length _ _,
    fun k hk => ⟨Laws.v2pSirc_mark _ _ k hk, Laws.v2pSirc_space _ _ k hk⟩⟩

/-- Settles O28, from the length, the marks and the spaces of a NEC serialization. -/
theorem v2pNecEmitsOnePairPerBit : Obligations.V2pNecEmitsOnePairPerBit := fun s =>
  ⟨v2pNec s.req.value s.req.width, exec_v2pNec s, Laws.v2pNec_length _ _,
    fun k hk => ⟨Laws.v2pNec_mark _ _ k hk, Laws.v2pNec_space _ _ k hk⟩⟩

/-! ## The ratio test -/

/-- R93's comparison with 1.75, freed of its fraction. -/
theorem gt_mul_seven_fourths_iff (mark space : Nat) : (space : ℚ) > mark * (7 / 4) ↔ 7 * mark < 4 * space := by
  have hscale : (mark : ℚ) * (7 / 4) < space ↔ 7 * (mark : ℚ) < 4 * space := by
    constructor <;> intro h <;> linarith
  rw [gt_iff_lt, hscale]
  norm_cast

/-- Settles O29: the model compares 7 marks with 4 spaces, which is R93's rational comparison. -/
theorem classifyIsTheExactRatioTest : Obligations.ClassifyIsTheExactRatioTest := fun s =>
  ⟨classifyPair s.req.mark s.req.space, exec_classify s,
    (Laws.classifyPair_true_iff _ _).trans (gt_mul_seven_fourths_iff _ _).symm⟩

end Sys2Proof.Proofs
end

section
/-! The NEC encoder (43_nec_encoder.md). The four bytes ENC_NEC serializes one after another (R120) are the bytes of one frame
word, so an accepted request's pulses are that word's index map (R56, R66); and what ENC_NEC answers is what its operand checks
say (R121, R124). -/

namespace Sys2Proof.Proofs

open Sys2Proof Sys2Proof.Machine

/-! ## The index map of a NEC frame -/

theorem necFramePulses_eq (W : Nat) : necFramePulses W = 9000 :: 4500 :: (v2pNec W 32 ++ [560]) := rfl

theorem necFramePulses_length (W : Nat) : (necFramePulses W).length = 67 := by
  simp [necFramePulses_eq, Laws.v2pNec_length]

/-- R56: element `i` of the serialized word is pulse `2 + i`. -/
theorem necFramePulses_getElem? {i : Nat} (W : Nat) (hi : i < 64) :
    (necFramePulses W)[2 + i]? = (v2pNec W 32)[i]? := by
  have hin : i < (v2pNec W 32).length := by rwa [Laws.v2pNec_length]
  rw [necFramePulses_eq, Nat.add_comm, List.getElem?_cons_succ, List.getElem?_cons_succ, List.getElem?_append_left hin]

theorem necFramePulses_mark {k : Nat} (W : Nat) (hk : k < 32) : (necFramePulses W)[2 + 2 * k]? = some 560 := by
  rw [necFramePulses_getElem? W (by omega), Laws.v2pNec_mark W 32 k hk]

theorem necFramePulses_space {k : Nat} (W : Nat) (hk : k < 32) :
    (necFramePulses W)[3 + 2 * k]? = some (if W.testBit k then 1690 else 560) := by
  have hindex : 3 + 2 * k = 2 + (2 * k + 1) := by omega
  rw [hindex, necFramePulses_getElem? W (by omega), Laws.v2pNec_space W 32 k hk]

theorem necFramePulses_trail (W : Nat) : (necFramePulses W)[66]? = some 560 := by
  have hend : 64 = (v2pNec W 32).length := (Laws.v2pNec_length W 32).symm
  rw [necFramePulses_eq, List.getElem?_cons_succ, List.getElem?_cons_succ, hend, List.getElem?_concat_length]

/-! ## The bytes of a NEC frame word -/

/-- The bits of a NEC frame word are those of its bytes, eight of each. -/
theorem nec32Word_testBit (l h c i : Byte) {j : Nat} (hj : j < 8) :
    (nec32Word l h c i).testBit j = l.getLsbD j
    ∧ (nec32Word l h c i).testBit (8 + j) = h.getLsbD j
    ∧ (nec32Word l h c i).testBit (16 + j) = c.getLsbD j
    ∧ (nec32Word l h c i).testBit (24 + j) = i.getLsbD j := by
  refine ⟨?_, ?_, ?_, ?_⟩ <;>
    simp (disch := omega) only [nec32Word, Nat.testBit_or, Nat.testBit_shiftLeft, BitVec.testBit_toNat, BitVec.getLsbD_of_ge,
      decide_eq_true, decide_eq_false, Nat.add_sub_cancel_left, Bool.and_false, Bool.false_and, Bool.true_and,
      Bool.or_false, Bool.false_or]

/-- R56, R66: the spaces of a frame carry the bits of its bytes. -/
theorem necFramePulses_byte_spaces (l h c i : Byte) {j : Nat} (hj : j < 8) :
    (necFramePulses (nec32Word l h c i))[3 + 2 * j]? = some (if l.getLsbD j then 1690 else 560)
    ∧ (necFramePulses (nec32Word l h c i))[3 + 2 * (8 + j)]? = some (if h.getLsbD j then 1690 else 560)
    ∧ (necFramePulses (nec32Word l h c i))[3 + 2 * (16 + j)]? = some (if c.getLsbD j then 1690 else 560)
    ∧ (necFramePulses (nec32Word l h c i))[3 + 2 * (24 + j)]? = some (if i.getLsbD j then 1690 else 560) := by
  obtain ⟨hl, hh, hc, hi⟩ := nec32Word_testBit l h c i hj
  simp (disch := omega) only [necFramePulses_space, hl, hh, hc, hi, and_self]

theorem getLsbD_byte_ofNat (a : Nat) {j : Nat} (hj : j < 8) : (BitVec.ofNat 8 a).getLsbD j = a.testBit j := by
  rw [BitVec.getLsbD_ofNat, decide_eq_true hj, Bool.true_and]

theorem getLsbD_byte_not (b : Byte) {j : Nat} (hj : j < 8) : (~~~b).getLsbD j = !b.getLsbD j := by
  rw [BitVec.getLsbD_not, decide_eq_true hj, Bool.true_and]

theorem v2pNec_add_mul_two_pow {a n : Nat} (h : a < 2 ^ n) (b m : Nat) :
    v2pNec (a + b * 2 ^ n) (n + m) = v2pNec a n ++ v2pNec b m := by
  rw [v2pNec, bitsOf_add_mul_two_pow h, List.flatMap_append, v2pNec, v2pNec]

/-- Only the low byte of a number is serialized in eight pairs. -/
theorem v2pNec_ofNat_toNat (a : Nat) : v2pNec (BitVec.ofNat 8 a).toNat 8 = v2pNec a 8 :=
  Laws.v2pNec_congr fun k hk => by rw [BitVec.testBit_toNat, getLsbD_byte_ofNat a hk]

theorem v2pNec_nec32Word (l h c i : Byte) :
    v2pNec (nec32Word l h c i) 32 = v2pNec l.toNat 8 ++ v2pNec h.toNat 8 ++ v2pNec c.toNat 8 ++ v2pNec i.toNat 8 := by
  have hl := l.isLt
  have hh := h.isLt
  have hc := c.isLt
  rw [Laws.nec32Word_eq, v2pNec_add_mul_two_pow (n := 24) (m := 8) (by omega),
    v2pNec_add_mul_two_pow (n := 16) (m := 8) (by omega), v2pNec_add_mul_two_pow (n := 8) (m := 8) hl]

/-- R66: the pulses ENC_NEC puts together byte by byte are the frame of its four bytes. -/
theorem necPulses_eq_frame (address command : Nat) :
    necPulses address command = necFramePulses (nec32Word (BitVec.ofNat 8 (necAddressLow address))
      (BitVec.ofNat 8 (necAddressHigh address)) (BitVec.ofNat 8 command) (~~~BitVec.ofNat 8 command)) := by
  rw [necFramePulses_eq, v2pNec_nec32Word, v2pNec_ofNat_toNat, v2pNec_ofNat_toNat, v2pNec_ofNat_toNat]
  rfl

/-! ## The answer of ENC_NEC -/

theorem exec_encNec (s : State) : exec .encNec s = .next (s.finish (encodeNec s.req.address s.req.command)) := rfl

theorem exec_encNec_of_accepts {s : State} (h : necCheck s.req.address s.req.command = none) :
    exec .encNec s = .next { s with rsp := .ok (.pulses (necPulses s.req.address s.req.command)), pending := false } := by
  rw [exec_encNec, encodeNec, h]
  rfl

/-- ENC_NEC answers an error exactly when its operand checks give it. -/
theorem exec_encNec_eq_error_iff (s : State) (k : ErrorKind) :
    exec .encNec s = .next { s with rsp := .error k, pending := false }
      ↔ necCheck s.req.address s.req.command = some k := by
  cases h : necCheck s.req.address s.req.command with
  | none => simp [exec_encNec_of_accepts h]
  | some e => simp [exec_encNec, encodeNec, h, State.finish, State.raise, State.respond]

/-! ## Which requests are accepted -/

theorem necCheck_accepts_legacy {address command : Nat} (hc : command < 2 ^ 8) (ha : address < 2 ^ 8) :
    necCheck address command = none := by
  rw [Laws.necCheck_eq, if_neg (by omega), if_neg (by omega), if_pos (by omega)]

/-- In 16-bit mode the ambiguity test is the only one left (R124). -/
theorem necCheck_wide {address command : Nat} (hc : command < 2 ^ 8) (hlo : 2 ^ 8 ≤ address) (hhi : address < 2 ^ 16) :
    necCheck address command = if address % 256 = 255 - address / 256 then some .invalidAddress else none := by
  rw [Laws.necCheck_eq, if_neg (by omega), if_neg (by omega), if_neg (by omega)]

theorem necCheck_accepts {address command : Nat} (hc : command < 2 ^ 8) (ha : address < 2 ^ 16)
    (hamb : 2 ^ 8 ≤ address → address % 256 ≠ 255 - address / 256) : necCheck address command = none := by
  obtain hlegacy | hwide := Nat.lt_or_ge address (2 ^ 8)
  · exact necCheck_accepts_legacy hc hlegacy
  · rw [necCheck_wide hc hwide ha, if_neg (hamb hwide)]

/-- R123: the high address byte of an address that is in range. -/
theorem necAddressHigh_of_lt {address : Nat} (ha : address < 2 ^ 16) :
    necAddressHigh address = if address < 2 ^ 8 then 255 - address else address / 256 := by
  rw [Laws.necAddressHigh_eq, Nat.mod_eq_of_lt (by omega : address / 256 < 256)]
  rfl

/-- R124: that one byte is the complement of another is symmetric. -/
theorem eq_comp8_comm {low high : Nat} (hl : low < 256) (hh : high < 256) : low = comp8 high ↔ high = comp8 low := by
  rw [Laws.comp8_eq, Laws.comp8_eq]
  omega

/-! ## The frame of an accepted request, and the refused addresses -/

/-- Settles O43: the request passes the checks, and its pulses are the index map of the word of its four bytes. -/
theorem encNecEmitsTheFrame : Obligations.EncNecEmitsTheFrame := by
  intro s high hc ha hamb hhigh
  refine ⟨necPulses s.req.address s.req.command, exec_encNec_of_accepts (necCheck_accepts hc ha hamb), ?_⟩
  rw [necPulses_eq_frame, Laws.necAddressLow_eq, necAddressHigh_of_lt ha, ← hhigh]
  refine ⟨necFramePulses_length _, rfl, rfl, necFramePulses_trail _, fun k hk => necFramePulses_mark _ hk, fun j hj => ?_⟩
  obtain ⟨hl, hh, hcmd, hinv⟩ := necFramePulses_byte_spaces (BitVec.ofNat 8 (s.req.address % 256)) (BitVec.ofNat 8 high)
    (BitVec.ofNat 8 s.req.command) (~~~BitVec.ofNat 8 s.req.command) hj
  rw [getLsbD_byte_ofNat _ hj] at hl hh hcmd
  rw [getLsbD_byte_not _ hj, getLsbD_byte_ofNat _ hj] at hinv
  refine ⟨hl, hh, hcmd, hinv.trans ?_⟩
  cases s.req.command.testBit j <;> rfl

/-- Settles O45: in 16-bit mode the ambiguity test decides alone, and no check refuses a legacy address. -/
theorem ambiguousNecAddressesAreRefused : Obligations.AmbiguousNecAddressesAreRefused := by
  refine ⟨?wide, fun low high => eq_comp8_comm, ?legacy⟩
  case wide =>
    intro s hc hlo hhi
    have hbyte : s.req.address &&& 0xFF = s.req.address % 256 := Nat.and_two_pow_sub_one_eq_mod _ 8
    have hshift : s.req.address >>> 8 = s.req.address / 256 := Nat.shiftRight_eq_div_pow _ 8
    rw [exec_encNec_eq_error_iff, necCheck_wide hc hlo hhi, hbyte, hshift]
    simp
  case legacy =>
    exact fun s hc ha => ⟨_, exec_encNec_of_accepts (necCheck_accepts_legacy hc ha)⟩

/-! ## The repeat signal -/

/-- Settles O50: the operation reads nothing of the request. -/
theorem necRepeatIsItsConstant : Obligations.NecRepeatIsItsConstant := exec_necRepeat

end Sys2Proof.Proofs
end

section
/-! Exceptions (60_exceptions.md). An operation that raises leaves RSP and the waiting of the request changed, and the next request
reads neither. -/

namespace Sys2Proof.Proofs

open Sys2Proof Sys2Proof.Machine

/-- Settles O21: the outcome of the next request is the same in every state it is presented in (R20), so also in the state the
failed request left and in the one it was made in. How that request ended plays no part. -/
theorem anErrorLeavesNothingBehind : Obligations.AnErrorLeavesNothingBehind :=
  fun s t _ _ _ _ r2 => responseIsAFunctionOfTheRequest r2 t s

end Sys2Proof.Proofs
end

section
/-! The capture ingestion (70_reset_and_hazards.md). A run of intervals that are no gaps goes in front of whatever the rest of the
capture is split into; so a gap after the run cuts the capture as the gap alone cuts what follows it (R176, R180). -/

namespace Sys2Proof.Proofs

open Sys2Proof Sys2Proof.Machine

/-! ## The deltas of the edges -/

theorem deltas_length (ts : List Nat) : (deltas ts).length = ts.length - 1 := by
  induction ts using deltas.induct with
  | case1 | case2 => rfl
  | case3 a b rest ih => simp only [deltas, List.length_cons, ih, Nat.add_sub_cancel]

theorem deltas_getElem? (ts : List Nat) {k : Nat} (hk : k + 1 < ts.length) :
    (deltas ts)[k]? = some (ts.getD (k + 1) 0 - ts.getD k 0) := by
  induction ts using deltas.induct generalizing k with
  | case1 => exact absurd hk (Nat.not_lt_zero _)
  | case2 a => exact absurd (Nat.lt_of_succ_lt_succ hk) (Nat.not_lt_zero k)
  | case3 a b rest ih =>
    cases k with
    | zero => rfl
    | succ k => exact ih (Nat.lt_of_succ_lt_succ hk)

/-! ## Runs without a gap -/

/-- A run without a gap joins the first sequence of what follows it. -/
theorem captureSplit_run_append {use : GapUse} {as ds : List Nat} {current : List Pulse} {later : List (List Pulse)}
    (has : ∀ d ∈ as, d ≤ 10000) (h : captureSplit use ds = current :: later) :
    captureSplit use (as ++ ds) = (as.map (BitVec.ofNat 16) ++ current) :: later := by
  induction as with
  | nil => exact h
  | cons a as ih =>
    obtain ⟨ha, has⟩ := List.forall_mem_cons.mp has
    have helt : asElement a = [BitVec.ofNat 16 a] := Laws.asElement_of_lt (by omega)
    rw [List.cons_append, Laws.captureSplit_element ha (ih has), helt]
    rfl

/-- A run without a gap is one sequence: nothing follows it. -/
theorem captureSplit_run (use : GapUse) {as : List Nat} (has : ∀ d ∈ as, d ≤ 10000) :
    captureSplit use as = [as.map (BitVec.ofNat 16)] := by
  have h := captureSplit_run_append has (Laws.captureSplit_nil use)
  rwa [List.append_nil, List.append_nil] at h

/-! ## A gap after a run, for each use of it -/

section
variable {as : List Nat} {g : Nat} (has : ∀ d ∈ as, d ≤ 10000) (hg : 10000 < g)
include has hg

theorem captureSplit_run_gap_dropped (bs : List Nat) :
    captureSplit .dropped (as ++ g :: bs) = as.map (BitVec.ofNat 16) :: captureSplit .dropped bs := by
  rw [captureSplit_run_append has (Laws.captureSplit_gap_dropped bs hg), List.append_nil]

theorem captureSplit_run_gap_endsEarlier (bs : List Nat) :
    captureSplit .endsEarlier (as ++ g :: bs)
      = (as.map (BitVec.ofNat 16) ++ asElement g) :: captureSplit .endsEarlier bs :=
  captureSplit_run_append has (Laws.captureSplit_gap_endsEarlier bs hg)

theorem captureSplit_run_gap_beginsLater {bs : List Nat} {current : List Pulse} {later : List (List Pulse)}
    (h : captureSplit .beginsLater bs = current :: later) :
    captureSplit .beginsLater (as ++ g :: bs) = as.map (BitVec.ofNat 16) :: (asElement g ++ current) :: later := by
  rw [captureSplit_run_append has (Laws.captureSplit_gap_beginsLater hg h), List.append_nil]

end

/-! ## With gaps dropped every element is an interval that is no gap -/

theorem toNat_le_of_mem_asElement {d : Nat} {v : Pulse} (hv : v ∈ asElement d) : v.toNat ≤ d := by
  rcases Nat.lt_or_ge d (2 ^ 16) with hd | hd
  · rw [Laws.asElement_of_lt hd, List.mem_singleton] at hv
    rw [hv, BitVec.toNat_ofNat]
    exact Nat.mod_le d (2 ^ 16)
  · rw [Laws.asElement_of_le hd] at hv
    exact absurd hv List.not_mem_nil

theorem captureSplit_dropped_le (ds : List Nat) : ∀ q ∈ captureSplit .dropped ds, ∀ v ∈ q, v.toNat ≤ 10000 := by
  induction ds with
  | nil => simp [Laws.captureSplit_nil]
  | cons d ds ih =>
    rcases Nat.lt_or_ge 10000 d with hgap | hle
    · rw [Laws.captureSplit_gap_dropped ds hgap]
      exact List.forall_mem_cons.mpr ⟨fun v hv => absurd hv List.not_mem_nil, ih⟩
    · obtain ⟨current, later, h⟩ := List.exists_cons_of_ne_nil (Laws.captureSplit_ne_nil .dropped ds)
      rw [h] at ih
      obtain ⟨hcurrent, hlater⟩ := List.forall_mem_cons.mp ih
      rw [Laws.captureSplit_element hle h]
      refine List.forall_mem_cons.mpr ⟨fun v hv => ?_, hlater⟩
      rcases List.mem_append.mp hv with hv | hv
      · exact (toNat_le_of_mem_asElement hv).trans hle
      · exact hcurrent v hv

/-- Settles O60: the deltas by the recursion of `deltas`, each cut by the run before its gap, and the bound by induction on the
intervals. What the statement keeps of a gap is `asElement` of it. -/
theorem captureIngestionCutsTheDeltasAtTheGaps : Obligations.CaptureIngestionCutsTheDeltasAtTheGaps := by
  refine ⟨fun use ts => ⟨rfl, deltas_length ts, fun k => deltas_getElem? ts⟩, fun use as => captureSplit_run use, ?cut,
    captureSplit_dropped_le⟩
  case cut =>
    intro as bs g has hg kept hkept
    obtain rfl : kept = asElement g := hkept
    obtain ⟨current, later, h⟩ := List.exists_cons_of_ne_nil (Laws.captureSplit_ne_nil .beginsLater bs)
    exact ⟨captureSplit_run_gap_dropped has hg bs, captureSplit_run_gap_endsEarlier has hg bs, current, later, h,
      captureSplit_run_gap_beginsLater has hg h⟩

end Sys2Proof.Proofs
end

section
/-! The encodings of 30_encoding.md (R60, R62 to R66, R68, R75). A frame word is the sum of its fields, each set above the ones
before it, so cutting a word into fields and setting fields into a word undo each other. -/

namespace Sys2Proof.Proofs

open Sys2Proof Sys2Proof.Machine

/-! ## The decoder, one equation per format -/

theorem decodeSircFrame_twelve {w : Nat} (h : w < 2 ^ 12) :
    decodeSircFrame 12 w = .ok (.sirc12 (field w 0 7) (field w 7 5)) :=
  if_pos h

theorem decodeSircFrame_fifteen {w : Nat} (h : w < 2 ^ 15) :
    decodeSircFrame 15 w = .ok (.sirc15 (field w 0 7) (field w 7 8)) :=
  if_pos h

theorem decodeSircFrame_twenty {w : Nat} (h : w < 2 ^ 20) :
    decodeSircFrame 20 w = .ok (.sirc20 (field w 0 7) (field w 7 5) (field w 12 8)) :=
  if_pos h

theorem decodeSircFrame_twentyThree {w : Nat} (h : w < 2 ^ 23) : decodeSircFrame 23 w = decodeSirc23 w :=
  if_pos h

theorem decodeNecFrame_thirtyTwo {w : Nat} (h : w < 2 ^ 32) (hcomp : field w 24 8 = ~~~field w 16 8) :
    decodeNecFrame 32 w = .ok (.nec32 (field w 0 8) (field w 8 8) (field w 16 8) (field w 24 8)) := by
  rw [decodeNecFrame, if_pos rfl, if_pos h, if_pos hcomp]

/-! ## What decodes, by the place it stands in -/

/-- A select decodes to the operation whose code it is. -/
theorem encode_of_decodeOp {op : BitVec 4} {i : Instr} (h : decodeOp op = .ok i) :
    i.wf = true ∧ encode i = .request op := by
  unfold decodeOp at h
  split at h <;> cases h
  all_goals next hop => exact ⟨rfl, congrArg Code.request (BitVec.eq_of_toNat_eq hop.symm)⟩

/-- The SIRC frame words that decode: those of the four lengths that fit their length, a 23-bit one with a device of five
bits. -/
theorem decodeSircFrame_ok {nb w : Nat} {i : Instr} (h : decodeSircFrame nb w = .ok i) :
    w < 2 ^ nb ∧ ((nb = 12 ∧ i = .sirc12 (field w 0 7) (field w 7 5))
      ∨ (nb = 15 ∧ i = .sirc15 (field w 0 7) (field w 7 8))
      ∨ (nb = 20 ∧ i = .sirc20 (field w 0 7) (field w 7 5) (field w 12 8))
      ∨ (nb = 23 ∧ (field w 7 8).toNat < 32 ∧ i = .sirc23 (field w 0 7) (field w 7 8) (field w 15 8))) := by
  unfold decodeSircFrame decodeSirc23 at h
  split_ifs at h with hlength hw h12 h15 h20 hdevice <;> cases h
  · exact ⟨hw, .inl ⟨h12, rfl⟩⟩
  · exact ⟨hw, .inr (.inl ⟨h15, rfl⟩)⟩
  · exact ⟨hw, .inr (.inr (.inl ⟨h20, rfl⟩))⟩
  · have h23 : nb = 23 := by omega
    exact ⟨hw, .inr (.inr (.inr ⟨h23, hdevice, rfl⟩))⟩

theorem decodeNecFrame_ok {nb w : Nat} {i : Instr} (h : decodeNecFrame nb w = .ok i) :
    nb = 32 ∧ w < 2 ^ 32 ∧ field w 24 8 = ~~~field w 16 8
      ∧ i = .nec32 (field w 0 8) (field w 8 8) (field w 16 8) (field w 24 8) := by
  unfold decodeNecFrame at h
  split_ifs at h with hnb hw hcomp
  cases h
  exact ⟨hnb, hw, hcomp, rfl⟩

/-! ## The words of the fields of a word -/

theorem sirc12Word_fields {w : Nat} (h : w < 2 ^ 12) : sirc12Word (field w 0 7) (field w 7 5) = w := by
  simp only [Laws.sirc12Word_eq, Laws.field_toNat]
  omega

theorem sirc15Word_fields {w : Nat} (h : w < 2 ^ 15) : sirc15Word (field w 0 7) (field w 7 8) = w := by
  simp only [Laws.sirc15Word_eq, Laws.field_toNat]
  omega

theorem sirc20Word_fields {w : Nat} (h : w < 2 ^ 20) :
    sirc20Word (field w 0 7) (field w 7 5) (field w 12 8) = w := by
  simp only [Laws.sirc20Word_eq, Laws.field_toNat]
  omega

theorem sirc23Word_fields {w : Nat} (h : w < 2 ^ 23) :
    sirc23Word (field w 0 7) (field w 7 8) (field w 15 8) = w := by
  simp only [Laws.sirc23Word_eq, Laws.field_toNat]
  omega

theorem nec32Word_fields {w : Nat} (h : w < 2 ^ 32) :
    nec32Word (field w 0 8) (field w 8 8) (field w 16 8) (field w 24 8) = w := by
  simp only [Laws.nec32Word_eq, Laws.field_toNat]
  omega

/-! ## The fields of the word of some fields -/

theorem fields_of_sirc12Word (c : BitVec 7) (d : BitVec 5) :
    field (sirc12Word c d) 0 7 = c ∧ field (sirc12Word c d) 7 5 = d := by
  have hc := c.isLt
  have hd := d.isLt
  simp only [← BitVec.toNat_inj, Laws.field_toNat, Laws.sirc12Word_eq]
  omega

theorem fields_of_sirc15Word (c : BitVec 7) (d : BitVec 8) :
    field (sirc15Word c d) 0 7 = c ∧ field (sirc15Word c d) 7 8 = d := by
  have hc := c.isLt
  have hd := d.isLt
  simp only [← BitVec.toNat_inj, Laws.field_toNat, Laws.sirc15Word_eq]
  omega

theorem fields_of_sirc20Word (c : BitVec 7) (d : BitVec 5) (e : BitVec 8) :
    field (sirc20Word c d e) 0 7 = c ∧ field (sirc20Word c d e) 7 5 = d ∧ field (sirc20Word c d e) 12 8 = e := by
  have hc := c.isLt
  have hd := d.isLt
  have he := e.isLt
  simp only [← BitVec.toNat_inj, Laws.field_toNat, Laws.sirc20Word_eq]
  omega

theorem fields_of_sirc23Word (c : BitVec 7) (d : BitVec 8) (e : BitVec 8) :
    field (sirc23Word c d e) 0 7 = c ∧ field (sirc23Word c d e) 7 8 = d ∧ field (sirc23Word c d e) 15 8 = e := by
  have hc := c.isLt
  have hd := d.isLt
  have he := e.isLt
  simp only [← BitVec.toNat_inj, Laws.field_toNat, Laws.sirc23Word_eq]
  omega

theorem fields_of_nec32Word (l h c i : Byte) :
    field (nec32Word l h c i) 0 8 = l ∧ field (nec32Word l h c i) 8 8 = h
      ∧ field (nec32Word l h c i) 16 8 = c ∧ field (nec32Word l h c i) 24 8 = i := by
  have hl := l.isLt
  have hh := h.isLt
  have hc := c.isLt
  have hi := i.isLt
  simp only [← BitVec.toNat_inj, Laws.field_toNat, Laws.nec32Word_eq]
  omega

/-! ## The frame rows decode from their words -/

theorem decode_encode_sirc12 (c : BitVec 7) (d : BitVec 5) : decode (encode (.sirc12 c d)) = .ok (.sirc12 c d) := by
  obtain ⟨hc, hd⟩ := fields_of_sirc12Word c d
  have h := decodeSircFrame_twelve (Laws.EncodingFits.sirc12 c d).2
  rwa [hc, hd] at h

theorem decode_encode_sirc15 (c : BitVec 7) (d : BitVec 8) : decode (encode (.sirc15 c d)) = .ok (.sirc15 c d) := by
  obtain ⟨hc, hd⟩ := fields_of_sirc15Word c d
  have h := decodeSircFrame_fifteen (Laws.EncodingFits.sirc15 c d).2
  rwa [hc, hd] at h

theorem decode_encode_sirc20 (c : BitVec 7) (d : BitVec 5) (e : BitVec 8) :
    decode (encode (.sirc20 c d e)) = .ok (.sirc20 c d e) := by
  obtain ⟨hc, hd, he⟩ := fields_of_sirc20Word c d e
  have h := decodeSircFrame_twenty (Laws.EncodingFits.sirc20 c d e).2
  rwa [hc, hd, he] at h

theorem decode_encode_sirc23 (c : BitVec 7) {d : BitVec 8} (e : BitVec 8) (hwf : d.toNat < 32) :
    decode (encode (.sirc23 c d e)) = .ok (.sirc23 c d e) := by
  obtain ⟨hc, hd, he⟩ := fields_of_sirc23Word c d e
  have h := decodeSircFrame_twentyThree (Laws.EncodingFits.sirc23 c d e).2
  rwa [decodeSirc23, hc, hd, he, if_pos hwf] at h

theorem decode_encode_nec32 (l h c : Byte) :
    decode (encode (.nec32 l h c (~~~c))) = .ok (.nec32 l h c (~~~c)) := by
  obtain ⟨hl, hh, hc, hi⟩ := fields_of_nec32Word l h c (~~~c)
  have hd := decodeNecFrame_thirtyTwo (Laws.EncodingFits.nec32 l h c (~~~c)).2 (by rw [hc, hi])
  rwa [hl, hh, hc, hi] at hd

/-- Settles O3, one row after another: a select or a symbol is its own code, and the fields of a frame row's word are the row's
operands. -/
theorem decodeOfEncodeIsTheInstruction : Obligations.DecodeOfEncodeIsTheInstruction := by
  intro i hwf
  cases i with
  | sirc12 c d => exact decode_encode_sirc12 c d
  | sirc15 c d => exact decode_encode_sirc15 c d
  | sirc20 c d e => exact decode_encode_sirc20 c d e
  | sirc23 c d e => exact decode_encode_sirc23 c e (of_decide_eq_true hwf)
  | nec32 l h c i =>
    obtain rfl : i = ~~~c := of_decide_eq_true hwf
    exact decode_encode_nec32 l h c
  | _ => rfl

/-- Settles O4, by the place the code stands in: a frame word that decodes fits its length, so it is the word of its fields. -/
theorem encodeOfDecodeIsTheCode : Obligations.EncodeOfDecodeIsTheCode := by
  intro code i h
  cases code with
  | request op => exact encode_of_decodeOp h
  | sircFrame nb w =>
    obtain ⟨hw, ⟨rfl, rfl⟩ | ⟨rfl, rfl⟩ | ⟨rfl, rfl⟩ | ⟨rfl, hd, rfl⟩⟩ := decodeSircFrame_ok h
    · exact ⟨rfl, congrArg _ (sirc12Word_fields hw)⟩
    · exact ⟨rfl, congrArg _ (sirc15Word_fields hw)⟩
    · exact ⟨rfl, congrArg _ (sirc20Word_fields hw)⟩
    · exact ⟨decide_eq_true hd, congrArg _ (sirc23Word_fields hw)⟩
  | necFrame nb w =>
    obtain ⟨rfl, hw, hcomp, rfl⟩ := decodeNecFrame_ok h
    exact ⟨decide_eq_true hcomp, congrArg _ (nec32Word_fields hw)⟩
  | sircSymbol bit => cases bit <;> cases h <;> exact ⟨rfl, rfl⟩
  | necSymbol bit => cases bit <;> cases h <;> exact ⟨rfl, rfl⟩

/-- Settles O2: the nine selects by computation, and each frame word as the code of its row. -/
theorem wordsOfTheSpecDecodeToTheirRows : Obligations.WordsOfTheSpecDecodeToTheirRows :=
  ⟨rfl, rfl, rfl, rfl, rfl, rfl, rfl, rfl, rfl, decode_encode_sirc12 18 1, decode_encode_sirc15 21 151,
    decode_encode_sirc20 18 1 74, decode_encode_sirc23 5 (d := 3) 7 (by decide), decode_encode_nec32 0x02 0x01 0x34, rfl, rfl⟩

end Sys2Proof.Proofs
end

section
/-! What every instruction answers, as a function of the request. An instruction ends with its answer and does nothing else
(R15, R20, R55), so a claim about a response is a claim about `answer`. -/

namespace Sys2Proof.Proofs

open Sys2Proof Sys2Proof.Machine

/-- The bits of `n` pairs of a sequence, pair `k` at `base + 2k` (R51). -/
def pairBits (P : List Pulse) (base n : Nat) : List Bool :=
  (List.range n).map fun k => classifyPair (P.getD (base + 2 * k) 0) (P.getD (base + 2 * k + 1) 0)

/-- What DEC_SIRC answers (R110, R111). -/
def decSircAnswer (P : List Pulse) : Result :=
  if P.length ∉ [25, 31, 41] then .raise .invalidPulseCount
  else if inWindow (P.getD 0 0) 2200 2600 = false then .raise .invalidHeader
  else .ok (sircFields P.length (pairBits P 1 ((P.length - 1) / 2)))

/-- What DEC_NEC answers (R130, R132). -/
def decNecAnswer (P : List Pulse) : Result :=
  if P.length ∉ [3, 67] then .raise .invalidPulseCount
  else if inWindow (P.getD 0 0) 8800 9300 = false then .raise .invalidAgcMark
  else if isRepeat (P.getD 1 0) (P.getD 2 0) then .ok .necRpt
  else if inWindow (P.getD 1 0) 4400 4600 = false then .raise .invalidAgcSpace
  else if P.length = 3 then .raise .checksumMismatch
  else necFields (pairBits P 2 32)

/-- What each row of the table answers to a request. -/
def answer (r : Request) : Instr → Result
  | .b2v => .ok (.value (valueOf r.bits))
  | .v2pSirc => .ok (.pulses (v2pSirc r.value r.width))
  | .v2pNec => .ok (.pulses (v2pNec r.value r.width))
  | .classify => .ok (.bit (classifyPair r.mark r.space))
  | .encSirc => encodeSirc r.command r.device r.extPresent r.ext r.force8
  | .decSirc => decSircAnswer r.P
  | .encNec => encodeNec r.address r.command
  | .decNec => decNecAnswer r.P
  | .necRepeat => .ok (.pulses Const.necRepeat)
  | .sirc12 c d => .ok (.pulses (sircFramePulses 12 (sirc12Word c d)))
  | .sirc15 c d => .ok (.pulses (sircFramePulses 15 (sirc15Word c d)))
  | .sirc20 c d e => .ok (.pulses (sircFramePulses 20 (sirc20Word c d e)))
  | .sirc23 c d e => .ok (.pulses (sircFramePulses 23 (sirc23Word c d e)))
  | .nec32 l h c i => .ok (.pulses (necFramePulses (nec32Word l h c i)))
  | .sircBit0 => .ok (.pulses (sircSymbol false))
  | .sircBit1 => .ok (.pulses (sircSymbol true))
  | .necBit0 => .ok (.pulses (necSymbol false))
  | .necBit1 => .ok (.pulses (necSymbol true))

/-- Every instruction ends with its answer, in every state. -/
theorem exec_eq_finish (i : Instr) (s : State) : exec i s = .next (s.finish (answer s.req i)) := by
  cases i with
  | decSirc => exact congrArg s.finishRead (Laws.decodeSirc_eq s.req.P)
  | decNec => exact congrArg s.finishRead (Laws.decodeNec_eq s.req.P)
  | _ => rfl

/-! ## From answers to responses -/

theorem exec_of_answer_ok {i : Instr} {s : State} {v : Success} (h : answer s.req i = .ok v) :
    exec i s = .next { s with rsp := .ok v, pending := false } := by
  rw [exec_eq_finish, h]
  rfl

theorem exec_of_answer_raise {i : Instr} {s : State} {k : ErrorKind} (h : answer s.req i = .raise k) :
    exec i s = .next { s with rsp := .error k, pending := false } := by
  rw [exec_eq_finish, h]
  rfl

theorem exec_next_iff {i : Instr} {s t : State} : exec i s = .next t ↔ t = s.finish (answer s.req i) := by
  rw [exec_eq_finish, Host.Outcome.next.injEq, eq_comm]

theorem finish_req (s : State) (r : Result) : (s.finish r).req = s.req := by
  cases r <;> rfl

theorem finish_rsp_error {s : State} {r : Result} {k : ErrorKind} (h : (s.finish r).rsp = .error k) : r = .raise k := by
  cases r with
  | ok v => cases h
  | raise e => cases h; rfl

/-- The response says which answer the instruction gave. -/
theorem exec_eq_ok_iff {i : Instr} {s : State} {v : Success} :
    exec i s = .next { s with rsp := .ok v, pending := false } ↔ answer s.req i = .ok v := by
  refine ⟨fun h => ?_, exec_of_answer_ok⟩
  rw [exec_next_iff] at h
  exact finish_rsp_ok (congrArg State.rsp h).symm

theorem exec_eq_error_iff {i : Instr} {s : State} {k : ErrorKind} :
    exec i s = .next { s with rsp := .error k, pending := false } ↔ answer s.req i = .raise k := by
  refine ⟨fun h => ?_, exec_of_answer_raise⟩
  rw [exec_next_iff] at h
  exact finish_rsp_error (congrArg State.rsp h).symm

theorem answer_of_rsp_ok {i : Instr} {s t : State} {v : Success} (h : exec i s = .next t) (hv : t.rsp = .ok v) :
    answer s.req i = .ok v := by
  rw [exec_next_iff.mp h] at hv
  exact finish_rsp_ok hv

theorem answer_of_rsp_error {i : Instr} {s t : State} {k : ErrorKind} (h : exec i s = .next t)
    (hk : t.rsp = .error k) : answer s.req i = .raise k := by
  rw [exec_next_iff.mp h] at hk
  exact finish_rsp_error hk

/-- The response is a function of the answer alone. -/
theorem finish_rsp_congr (s t : State) (r : Result) : (s.finish r).rsp = (t.finish r).rsp := by
  cases r <;> rfl

/-- Requests with one answer get one response, in any two states. -/
theorem rsp_eq_of_answer_eq {i j : Instr} {s t s' t' : State} (hs : exec i s = .next s') (ht : exec j t = .next t')
    (h : answer s.req i = answer t.req j) : s'.rsp = t'.rsp := by
  rw [exec_next_iff.mp hs, exec_next_iff.mp ht, h, finish_rsp_congr s t]

/-- The same, with the response named. -/
theorem exec_same_response {i : Instr} {s t : State} (h : answer s.req i = answer t.req i) :
    ∃ r, exec i s = .next { s with rsp := r, pending := false }
      ∧ exec i t = .next { t with rsp := r, pending := false } := by
  cases hs : answer s.req i with
  | ok v => exact ⟨.ok v, exec_of_answer_ok hs, exec_of_answer_ok (h.symm.trans hs)⟩
  | raise k => exact ⟨.error k, exec_of_answer_raise hs, exec_of_answer_raise (h.symm.trans hs)⟩

/-- Rows with one answer to a request do the same. -/
theorem exec_eq_of_answer_eq {i j : Instr} {s : State} (h : answer s.req i = answer s.req j) : exec i s = exec j s := by
  rw [exec_eq_finish, exec_eq_finish, h]

end Sys2Proof.Proofs
end

section
/-! The machine (00_scope.md, 10_state.md, 20_memory.md). A step runs the operation a select decodes to, every operation answers,
and nothing but the response is left behind. -/

namespace Sys2Proof.Proofs

open Sys2Proof Sys2Proof.Machine Sys2Proof.Safety

/-! ## Selects and steps -/

theorem decodeOp_of_lt {op : BitVec 4} (h : op.toNat < 9) : ∃ i, decodeOp op = .ok i := by
  unfold decodeOp
  split
  case h_10 => grind
  all_goals exact ⟨_, rfl⟩

theorem decodeOp_of_ge {op : BitVec 4} (h : 9 ≤ op.toNat) : decodeOp op = .error (.reservedOp op) := by
  unfold decodeOp
  split
  case h_10 => rfl
  all_goals omega

theorem step_of_not_pending {s : State} (h : s.pending = false) : step s = .next s := by
  simp only [step, h]

/-- Everything a step that gives a next state can do: wait, or run one instruction. -/
theorem step_next_cases {s t : State} (h : step s = .next t) :
    (s.pending = false ∧ t = s) ∨ (s.pending = true ∧ ∃ i, exec i s = .next t) := by
  cases hp : s.pending with
  | false =>
    rw [step_of_not_pending hp] at h
    cases h
    exact .inl ⟨rfl, rfl⟩
  | true =>
    cases hd : decode (.request s.req.op) with
    | ok i => exact .inr ⟨rfl, i, (step_of_decode_ok hp hd).symm.trans h⟩
    | error e =>
      rw [step_of_decode_error hp hd] at h
      cases h

/-- Settles O1: the two cases of a step. -/
theorem stepRunsTheDecodedOperation : Obligations.StepRunsTheDecodedOperation :=
  fun _ _ => ⟨step_of_decode_ok, step_of_not_pending⟩

/-- Settles O10: a select of 9 or more decodes to nothing, and a step refuses what does not decode. -/
theorem reservedSelectsAreRefused : Obligations.ReservedSelectsAreRefused :=
  fun _ hp h => step_of_decode_error hp (decodeOp_of_ge h)

/-- Settles O11: the select decodes, and every instruction answers. -/
theorem everyPresentedRequestIsAnswered : Obligations.EveryPresentedRequestIsAnswered := by
  intro s hp hop
  obtain ⟨i, hi⟩ := decodeOp_of_lt hop
  obtain ⟨a, ha, hexec⟩ := exec_responds i s
  exact ⟨a, valid_iff.mp ha, (step_of_decode_ok hp hi).trans hexec⟩

theorem exec_noFault (i : Instr) (s : State) : NoFault (exec i s) := by
  intro f h
  rw [exec_eq_finish] at h
  cases h

theorem step_noFault (s : State) : NoFault (step s) := by
  intro f h
  cases hp : s.pending with
  | false =>
    rw [step_of_not_pending hp] at h
    cases h
  | true =>
    cases hd : decode (.request s.req.op) with
    | ok i => exact exec_noFault i s f ((step_of_decode_ok hp hd).symm.trans h)
    | error e =>
      rw [step_of_decode_error hp hd] at h
      cases h

/-- Settles O12: every instruction ends with its answer, and a step that runs none waits or refuses. -/
theorem noReadLeavesItsSequence : Obligations.NoReadLeavesItsSequence :=
  ⟨step_noFault, exec_noFault⟩

/-! ## What an instruction leaves behind -/

theorem exec_frame {i : Instr} {s t : State} (h : exec i s = .next t) : t = s.respond t.rsp ∧ t.rsp.valid = true := by
  obtain ⟨a, ha, hexec⟩ := exec_responds i s
  cases hexec.symm.trans h
  exact ⟨rfl, ha⟩

/-- Settles O13: an instruction's next state is the response put into the old one. -/
theorem anInstructionWritesOnlyTheResponse : Obligations.AnInstructionWritesOnlyTheResponse := by
  intro i s t h
  obtain ⟨ht, -⟩ := exec_frame h
  have hreq : t.req = (s.respond t.rsp).req := congrArg State.req ht
  have hpending : t.pending = (s.respond t.rsp).pending := congrArg State.pending ht
  exact ⟨hreq, hpending, ht⟩

/-- Settles O20: a step either waits and keeps RSP, or runs an instruction and leaves a valid response. -/
theorem validRisesWithTheFirstResponse : Obligations.ValidRisesWithTheFirstResponse := by
  intro s t h
  obtain ⟨hp, rfl⟩ | ⟨hp, i, hexec⟩ := step_next_cases h
  · rw [hp, Bool.false_or]
  · rw [hp, Bool.true_or]
    exact (exec_frame hexec).2

/-! ## Reset -/

/-- Settles O17: a reset writes RSP and the waiting of the request, and a request presented after it reads neither (R20). -/
theorem resetInvalidatesTheResponseOnly : Obligations.ResetInvalidatesTheResponseOnly :=
  ⟨rfl, rfl, fun s => ⟨rfl, rfl, rfl, fun r => responseIsAFunctionOfTheRequest r s.resetEvent s⟩⟩

/-- Settles O18: every operand is 0, absent or empty, so it fits every size, and there is no response. -/
theorem resetMeetsTheInvariant : Obligations.ResetMeetsTheInvariant := by
  intro p
  refine ⟨?_, rfl, rfl⟩
  simp [presentable, State.reset, Request.zero]

/-! ## Status codes -/

/-- The kinds stand in the order of their codes. -/
theorem errorKind_ofNat_code (k : ErrorKind) : ErrorKind.ofNat (k.code.toNat - 1) = k := by
  cases k <;> rfl

theorem errorKind_code_bounds (k : ErrorKind) : 1 ≤ k.code.toNat ∧ k.code.toNat ≤ 10 := by
  cases k <;> decide

/-- Settles O23: a code tells its kind, since the kinds stand in the order of their codes. -/
theorem statusCodesAreOneToTen : Obligations.StatusCodesAreOneToTen := by
  refine ⟨fun _ => rfl, rfl, fun k => ⟨rfl, errorKind_code_bounds k⟩, fun k k' h => ?_⟩
  rw [← errorKind_ofNat_code k, h, errorKind_ofNat_code]

/-! ## Callers that share the block -/

/-- A served list, request by request. -/
theorem serve_cons_iff {s u : State} {r : Request} {rs : List Request} {rsps : List Response} :
    serve s (r :: rs) = .next (u, rsps)
      ↔ ∃ t rest, step (s.present r) = .next t ∧ serve t rs = .next (u, rest) ∧ rsps = t.rsp :: rest := by
  rw [serve]
  cases step (s.present r) with
  | fault f | refused f => simp
  | next t =>
    cases hrest : serve t rs with
    | fault f | refused f => simp [hrest]
    | next p => simp [hrest, Prod.ext_iff, eq_comm]

/-- Each caller's requests, served alone, get the responses they got among the others'. -/
theorem serve_filter_caller (c : Nat) {zs : List (Nat × Request)} {s u : State} {rsps : List Response}
    (h : serve s (zs.map Prod.snd) = .next (u, rsps)) (s0 : State) :
    ∃ u0, serve s0 ((zs.filter fun z => z.1 = c).map Prod.snd)
      = .next (u0, ((zs.zip rsps).filter fun y => y.1.1 = c).map Prod.snd) := by
  induction zs generalizing s rsps s0 with
  | nil => exact ⟨s0, rfl⟩
  | cons z zs ih =>
    obtain ⟨t, rest, hstep, hserve, rfl⟩ := serve_cons_iff.mp h
    by_cases hz : z.1 = c
    · have hstep0 : step (s0.present z.2) = .next t := (responseIsAFunctionOfTheRequest z.2 s0 s).trans hstep
      obtain ⟨u0, hu0⟩ := ih hserve t
      refine ⟨u0, ?_⟩
      simp only [List.zip_cons_cons, List.filter_cons, hz, decide_true, if_true, List.map_cons]
      exact serve_cons_iff.mpr ⟨t, _, hstep0, hu0, rfl⟩
    · obtain ⟨u0, hu0⟩ := ih hserve s0
      refine ⟨u0, ?_⟩
      simpa only [List.zip_cons_cons, List.filter_cons, hz, decide_false, Bool.false_eq_true, if_false] using hu0

/-- Settles O15: a response depends on its request alone (R20), so leaving out the other callers' requests changes none. -/
theorem interleavedCallersGetTheirOwnResponses : Obligations.InterleavedCallersGetTheirOwnResponses := by
  refine ⟨?same, fun zs s u rsps h c s0 => serve_filter_caller c h s0⟩
  case same =>
    rintro r _ s1 s2 t1 t2 rfl h1 h2
    cases h1.symm.trans ((responseIsAFunctionOfTheRequest r s1 s2).trans h2)
    rfl

/-! ## Fields an operation does not list -/

/-- An absent extended device is not looked at. -/
theorem encodeSirc_ext_absent (command device ext ext' : Nat) (force8 : Bool) :
    encodeSirc command device false ext force8 = encodeSirc command device false ext' force8 := rfl

/-- The operation a select names answers alike to requests that agree in the fields listed for it. -/
theorem answer_eq_of_sameOperands {a b : Request} {i : Instr} (hi : encode i = .request a.op)
    (h : sameOperands a b) : answer a i = answer b i := by
  obtain ⟨-, hb2v, hv2p, hclassify, hencSirc, hdec, hencNec⟩ := h
  cases i with
  | b2v =>
    have hbits := hb2v (Code.request.inj hi).symm
    simp only [answer, hbits]
  | v2pSirc =>
    obtain ⟨hvalue, hwidth⟩ := hv2p (.inl (Code.request.inj hi).symm)
    simp only [answer, hvalue, hwidth]
  | v2pNec =>
    obtain ⟨hvalue, hwidth⟩ := hv2p (.inr (Code.request.inj hi).symm)
    simp only [answer, hvalue, hwidth]
  | classify =>
    obtain ⟨hmark, hspace⟩ := hclassify (Code.request.inj hi).symm
    simp only [answer, hmark, hspace]
  | encSirc =>
    obtain ⟨hcommand, hdevice, hpresent, hext, hforce⟩ := hencSirc (Code.request.inj hi).symm
    simp only [answer, hcommand, hdevice, hforce, ← hpresent]
    cases hx : a.extPresent with
    | false => exact encodeSirc_ext_absent _ _ _ _ _
    | true => rw [hext hx]
  | decSirc =>
    have hP := hdec (.inl (Code.request.inj hi).symm)
    simp only [answer, hP]
  | encNec =>
    obtain ⟨haddress, hcommand⟩ := hencNec (Code.request.inj hi).symm
    simp only [answer, haddress, hcommand]
  | decNec =>
    have hP := hdec (.inr (Code.request.inj hi).symm)
    simp only [answer, hP]
  | _ => rfl

/-- Settles O16: both requests select one operation, and it answers them alike. -/
theorem unlistedFieldsDoNotMatter : Obligations.UnlistedFieldsDoNotMatter := by
  intro a b s t h hstep
  cases hd : decode (.request a.op) with
  | error e =>
    rw [step_of_decode_error (s := s.present a) rfl hd] at hstep
    cases hstep
  | ok i =>
    have hexec : exec i (s.present a) = .next t := (step_of_decode_ok rfl hd).symm.trans hstep
    have hdb : decode (.request b.op) = .ok i := h.1 ▸ hd
    have hanswer : answer b i = answer a i := (answer_eq_of_sameOperands (encode_of_decodeOp hd).2 h).symm
    refine ⟨_, (step_of_decode_ok (s := s.present b) rfl hdb).trans (exec_eq_finish i _), ?_⟩
    exact rsp_eq_of_answer_eq (exec_eq_finish i _) hexec hanswer

end Sys2Proof.Proofs
end

section
/-! Bits, symbols and the ratio test (R14, R68, R90, R94). -/

namespace Sys2Proof.Proofs

open Sys2Proof Sys2Proof.Machine

/-- The bits of a number below a width, read back, are the number modulo that width. -/
theorem valueOf_bitsOf (v w : Nat) : valueOf (bitsOf v w) = v % 2 ^ w := by
  refine Laws.valueOf_ext fun k => ?_
  rw [Nat.testBit_mod_two_pow, List.getD_eq_getElem?_getD]
  by_cases hk : k < w
  · simp [Laws.bitsOf_getElem? v w k hk, hk]
  · rw [List.getElem?_eq_none (by rw [Laws.bitsOf_length]; omega)]
    simp [hk]

/-- Settles O26: the request's bits are those of `v`, and their value is `v` up to the width. -/
theorem b2vInvertsBitsOf : Obligations.B2vInvertsBitsOf := by
  intro s v w h
  rw [exec_b2v, h, valueOf_bitsOf]
  rfl

theorem bitsOf_one {v : Nat} {bit : Bool} (h : v % 2 = bit.toNat) : bitsOf v 1 = [bit] := by
  have hbit : v.testBit 0 = bit := by
    rw [Nat.testBit_zero, h]
    cases bit <;> rfl
  rw [← hbit]
  rfl

theorem classifyPair_sircSymbol (bit : Bool) : classifyPair 600 (if bit then 1200 else 600) = bit := by
  cases bit <;> rfl

theorem classifyPair_necSymbol (bit : Bool) : classifyPair 560 (if bit then 1690 else 560) = bit := by
  cases bit <;> rfl

/-- Settles O8: one bit makes one symbol, and the ratio test reads both protocols' symbols. -/
theorem oneBitIsOneSymbol : Obligations.OneBitIsOneSymbol := by
  intro s bit hwidth hvalue
  refine ⟨?sirc, ?nec, fun hmark hspace => ?readSirc, fun hmark hspace => ?readNec, exec_classify s⟩
  case sirc =>
    rw [exec_v2pSirc, hwidth, Laws.v2pSirc_eq, bitsOf_one hvalue]
    rfl
  case nec =>
    rw [exec_v2pNec, hwidth, Laws.v2pNec_eq, bitsOf_one hvalue]
    rfl
  case readSirc =>
    rw [exec_classify, hmark, hspace, classifyPair_sircSymbol]
    rfl
  case readNec =>
    rw [exec_classify, hmark, hspace, classifyPair_necSymbol]
    rfl

/-- Settles O9: each symbol row answers its symbol. -/
theorem symbolRowsEmitTheirPairs : Obligations.SymbolRowsEmitTheirPairs := fun _ =>
  ⟨exec_of_answer_ok (i := .sircBit0) rfl, exec_of_answer_ok (i := .sircBit1) rfl,
    exec_of_answer_ok (i := .necBit0) rfl, exec_of_answer_ok (i := .necBit1) rfl⟩

/-- Settles O30: `7 * 600 < 4 * 1051` and `7 * 560 < 4 * 981` are the least true cases. -/
theorem classifyThresholdsAtNominalDurations : Obligations.ClassifyThresholdsAtNominalDurations := by
  intro s t b h hb
  obtain rfl : classifyPair s.req.mark s.req.space = b := by
    cases answer_of_rsp_ok h hb
    rfl
  refine ⟨fun hmark => ?_, fun hmark => ?_⟩
  · have hmark' : s.req.mark.toNat = 600 := congrArg BitVec.toNat hmark
    rw [Laws.classifyPair_true_iff, hmark']
    omega
  · have hmark' : s.req.mark.toNat = 560 := congrArg BitVec.toNat hmark
    rw [Laws.classifyPair_true_iff, hmark']
    omega

end Sys2Proof.Proofs
end

section
/-! The SIRC encoder (41_sirc_encoder.md). An accepted request is answered with the frame of one word, whose fields are the low
seven command bits, the device and the extended device; the statements about its pulses are about that word. -/

namespace Sys2Proof.Proofs

open Sys2Proof Sys2Proof.Machine

/-! ## The frame rows -/

theorem sircFramePulses_header (nb W : Nat) (hnb : 0 < nb) :
    (sircFramePulses nb W)[0]? = some 2400 ∧ (sircFramePulses nb W)[1]? = some 600 := by
  simp [sircFramePulses_eq, List.getElem?_dropLast, Laws.v2pSirc_length]
  omega

/-- A space stands before every mark, the header space before the first (R51, R102). -/
theorem sircFramePulses_space {nb k : Nat} (W : Nat) (hk : k < nb) : (sircFramePulses nb W)[1 + 2 * k]? = some 600 := by
  cases k with
  | zero => exact (sircFramePulses_header nb W hk).2
  | succ k =>
    have hindex : 1 + 2 * (k + 1) = 2 + (2 * k + 1) := by omega
    rw [hindex, sircFramePulses_getElem? W (by omega), Laws.v2pSirc_space W nb k (by omega)]

/-- What R56 says of a SIRC frame. -/
theorem sircFramePulses_indexMap (nb W : Nat) (hnb : 0 < nb) :
    (sircFramePulses nb W).length = 2 * nb + 1 ∧ (sircFramePulses nb W)[0]? = some 2400
      ∧ (sircFramePulses nb W)[1]? = some 600
      ∧ (∀ k < nb, (sircFramePulses nb W)[2 + 2 * k]? = some (if W.testBit k then 1200 else 600))
      ∧ ∀ k < nb - 1, (sircFramePulses nb W)[3 + 2 * k]? = some 600 := by
  obtain ⟨hmark, hspace⟩ := sircFramePulses_header nb W hnb
  refine ⟨sircFramePulses_length nb W, hmark, hspace, fun k hk => sircFramePulses_mark W hk, fun k hk => ?_⟩
  have hindex : 3 + 2 * k = 1 + 2 * (k + 1) := by omega
  rw [hindex, sircFramePulses_space W (by omega)]

/-- Every row whose code is a SIRC frame word answers with that word's frame, which has data bits. -/
theorem answer_of_sircFrame {i : Instr} {nb W : Nat} (h : encode i = .sircFrame nb W) (r : Request) :
    answer r i = .ok (.pulses (sircFramePulses nb W)) ∧ 0 < nb := by
  cases i with
  | sirc12 | sirc15 | sirc20 | sirc23 =>
    cases h
    exact ⟨rfl, by decide⟩
  | _ => cases h

/-- Settles O6: the row's answer is its word's frame. -/
theorem sircFrameRowsEmitTheirIndexMap : Obligations.SircFrameRowsEmitTheirIndexMap := by
  intro i nb W s h
  obtain ⟨hanswer, hnb⟩ := answer_of_sircFrame h s.req
  exact ⟨sircFramePulses nb W, exec_of_answer_ok hanswer, sircFramePulses_indexMap nb W hnb⟩

/-! ## The operand checks -/

theorem encodeSirc_of_check {command device ext : Nat} {extPresent : Bool} {k : ErrorKind}
    (h : sircCheck command device extPresent ext = some k) (force8 : Bool) :
    encodeSirc command device extPresent ext force8 = .raise k := by
  rw [encodeSirc, h]

theorem encodeSirc_of_accepted {command device ext : Nat} {extPresent : Bool}
    (h : sircCheck command device extPresent ext = none) (force8 : Bool) :
    encodeSirc command device extPresent ext force8
      = .ok (.pulses (sircPulses command device extPresent ext force8)) := by
  rw [encodeSirc, h]

/-- Settles O31: each clause says that the checks before one pass and that one fails. -/
theorem encSircErrorsInOrder : Obligations.EncSircErrorsInOrder := by
  intro s
  refine ⟨fun hc => ?_, fun hc hx he => ?_, fun hc hx he hd => ?_, fun hc hx hd => ?_⟩ <;>
    refine exec_of_answer_raise (i := .encSirc) (encodeSirc_of_check ?_ _)
  · rw [Laws.sircCheck_eq, if_pos (by omega)]
  · rw [Laws.sircCheck_eq, if_neg (by omega), if_pos hx, if_pos (by omega)]
  · rw [Laws.sircCheck_eq, if_neg (by omega), if_pos hx, if_neg (by omega), if_pos (by omega)]
  · rw [Laws.sircCheck_eq, if_neg (by omega), if_neg (by simp [hx]), if_pos (by omega)]

/-- What the operand checks of ENC_SIRC accept (R101). -/
def SircAccepted (r : Request) : Prop :=
  r.command < 2 ^ 12 ∧ (r.extPresent = true → r.ext < 2 ^ 8 ∧ r.device < 2 ^ 5)
    ∧ (r.extPresent = false → r.device < 2 ^ 8)

theorem sircCheck_eq_none_iff (r : Request) :
    sircCheck r.command r.device r.extPresent r.ext = none ↔ SircAccepted r := by
  rw [Laws.sircCheck_eq, SircAccepted]
  cases r.extPresent <;> grind

/-! ## The word of an accepted request -/

/-- The width of the extended device's field. -/
def sircExtWidth (extPresent : Bool) : Nat :=
  if extPresent then 8 else 0

/-- The number of data bits of the frame ENC_SIRC sends for a request (R103). -/
def sircFrameBits (r : Request) : Nat :=
  7 + sircDeviceWidth r.device r.force8 + sircExtWidth r.extPresent

/-- The frame word ENC_SIRC sends for a request (R63 to R65, R75). -/
def sircFrameWord (r : Request) : Nat :=
  r.command % 2 ^ 7 + r.device * 2 ^ 7
    + (if r.extPresent then r.ext else 0) * 2 ^ (7 + sircDeviceWidth r.device r.force8)

theorem sircFrameBits_eq {r : Request} {width : Nat} {extPresent : Bool}
    (hwidth : sircDeviceWidth r.device r.force8 = width) (hx : r.extPresent = extPresent) :
    sircFrameBits r = 7 + width + sircExtWidth extPresent := by
  rw [sircFrameBits, hwidth, hx]

theorem sircFrameWord_plain {r : Request} (hx : r.extPresent = false) :
    sircFrameWord r = r.command % 2 ^ 7 + r.device * 2 ^ 7 := by
  rw [sircFrameWord, hx, if_neg Bool.false_ne_true, Nat.zero_mul, Nat.add_zero]

theorem sircFrameWord_extended {r : Request} (hx : r.extPresent = true) :
    sircFrameWord r = r.command % 2 ^ 7 + r.device * 2 ^ 7
      + r.ext * 2 ^ (7 + sircDeviceWidth r.device r.force8) := by
  rw [sircFrameWord, hx, if_pos rfl]

/-- Seven command bits are sent, whatever the command (R72, R105). -/
theorem sircPulses_command_mod (command device : Nat) (extPresent : Bool) (ext : Nat) (force8 : Bool) :
    sircPulses command device extPresent ext force8
      = sircPulses (command % 2 ^ 7) device extPresent ext force8 := by
  have hmask : ∀ a : Nat, a &&& Const.sircCmdMask = a % 2 ^ 7 := fun a => Nat.and_two_pow_sub_one_eq_mod a 7
  simp only [sircPulses, hmask, Nat.mod_mod]

theorem SircAccepted.device_lt_width {r : Request} (h : SircAccepted r) :
    r.device < 2 ^ sircDeviceWidth r.device r.force8 := by
  obtain ⟨-, hext, hplain⟩ := h
  have hdevice : r.device < 2 ^ 8 := by
    cases hx : r.extPresent with
    | false => exact hplain hx
    | true => exact (hext hx).2.trans (by decide)
  rw [Laws.sircDeviceWidth_eq]
  split_ifs <;> omega

theorem sircPulses_eq_frameWord {r : Request} (h : SircAccepted r) :
    sircPulses r.command r.device r.extPresent r.ext r.force8 = sircFramePulses (sircFrameBits r) (sircFrameWord r) := by
  have hcommand : r.command % 2 ^ 7 < 2 ^ 7 := Nat.mod_lt _ (by decide)
  rw [sircPulses_command_mod]
  cases hx : r.extPresent with
  | false =>
    rw [sircPulses_eq_frame hcommand, sircFrameBits_eq rfl hx, sircFrameWord_plain hx]
    rfl
  | true =>
    rw [sircPulses_extended_eq_frame hcommand h.device_lt_width, sircFrameBits_eq rfl hx, sircFrameWord_extended hx]
    rfl

/-- An accepted request is answered with the frame of its word. -/
theorem SircAccepted.answer_eq {r : Request} (h : SircAccepted r) :
    answer r .encSirc = .ok (.pulses (sircFramePulses (sircFrameBits r) (sircFrameWord r))) := by
  rw [← sircPulses_eq_frameWord h]
  exact encodeSirc_of_accepted ((sircCheck_eq_none_iff r).mpr h) r.force8

/-- Pulses come from ENC_SIRC only for an accepted request. -/
theorem encSirc_pulses {r : Request} {Q : List Pulse} (h : answer r .encSirc = .ok (.pulses Q)) :
    SircAccepted r ∧ Q = sircFramePulses (sircFrameBits r) (sircFrameWord r) := by
  cases hcheck : sircCheck r.command r.device r.extPresent r.ext with
  | some k =>
    have herror : answer r .encSirc = .raise k := encodeSirc_of_check hcheck r.force8
    cases herror.symm.trans h
  | none =>
    have haccepted : SircAccepted r := (sircCheck_eq_none_iff r).mp hcheck
    cases haccepted.answer_eq.symm.trans h
    exact ⟨haccepted, rfl⟩

/-! ## The bits of the word -/

theorem testBit_add_mul_two_pow {a n : Nat} (h : a < 2 ^ n) (b k : Nat) :
    (a + b * 2 ^ n).testBit k = if k < n then a.testBit k else b.testBit (k - n) := by
  rw [Nat.add_comm, Nat.mul_comm, Nat.testBit_two_pow_mul_add b h]

theorem SircAccepted.word_low_lt {r : Request} (h : SircAccepted r) :
    r.command % 2 ^ 7 + r.device * 2 ^ 7 < 2 ^ (7 + sircDeviceWidth r.device r.force8) := by
  have hdevice := h.device_lt_width
  rw [Nat.pow_add]
  omega

/-- The fields of the word, in the order they are sent. -/
theorem SircAccepted.testBit_word {r : Request} (h : SircAccepted r) :
    (∀ k < 7, (sircFrameWord r).testBit k = r.command.testBit k)
    ∧ (∀ k < sircDeviceWidth r.device r.force8, (sircFrameWord r).testBit (7 + k) = r.device.testBit k)
    ∧ ∀ k < sircExtWidth r.extPresent,
        (sircFrameWord r).testBit (7 + sircDeviceWidth r.device r.force8 + k) = r.ext.testBit k := by
  have hcommand : r.command % 2 ^ 7 < 2 ^ 7 := Nat.mod_lt _ (by decide)
  refine ⟨fun k hk => ?_, fun k hk => ?_, fun k hk => ?_⟩
  · rw [sircFrameWord, testBit_add_mul_two_pow h.word_low_lt, if_pos (by omega), testBit_add_mul_two_pow hcommand,
      if_pos hk, Nat.testBit_mod_two_pow, decide_eq_true hk, Bool.true_and]
  · rw [sircFrameWord, testBit_add_mul_two_pow h.word_low_lt, if_pos (by omega), testBit_add_mul_two_pow hcommand,
      if_neg (by omega), Nat.add_sub_cancel_left]
  · have hx : r.extPresent = true := by
      by_contra hx
      simp [sircExtWidth, hx] at hk
    rw [sircFrameWord, testBit_add_mul_two_pow h.word_low_lt, if_neg (by omega), if_pos hx, Nat.add_sub_cancel_left]

/-- Settles O32: the index map of the request's word, field by field. -/
theorem encSircEmitsTheFrame : Obligations.EncSircEmitsTheFrame := by
  rintro s _ _ hc hext hplain rfl rfl
  have haccepted : SircAccepted s.req := ⟨hc, hext, hplain⟩
  have hpos : 0 < sircFrameBits s.req := by
    rw [sircFrameBits]
    omega
  obtain ⟨hlength, hmark, hspace, hmarks, hspaces⟩ :=
    sircFramePulses_indexMap (sircFrameBits s.req) (sircFrameWord s.req) hpos
  obtain ⟨hcommand, hdevice, hextended⟩ := haccepted.testBit_word
  refine ⟨_, exec_of_answer_ok haccepted.answer_eq, hlength, hmark, hspace, fun k hk => ?_, fun k hk => ?_,
    fun k hk => ?_, hspaces⟩
  · rw [hmarks k (by rw [sircFrameBits]; omega), hcommand k hk]
  · rw [hmarks (7 + k) (Nat.lt_add_right _ (Nat.add_lt_add_left hk 7)), hdevice k hk]
  · have hbit := hmarks _ (Nat.add_lt_add_left hk (7 + sircDeviceWidth s.req.device s.req.force8))
    rwa [hextended k hk] at hbit

/-! ## The frame row of an accepted request -/

/-- A request does what a row does whose code is the request's frame word. -/
theorem SircAccepted.exec_eq_row {s : State} (h : SircAccepted s.req) {i : Instr} {nb W : Nat}
    (hi : encode i = .sircFrame nb W) (hnb : sircFrameBits s.req = nb) (hW : sircFrameWord s.req = W) :
    exec .encSirc s = exec i s := by
  apply exec_eq_of_answer_eq
  rw [h.answer_eq, (answer_of_sircFrame hi s.req).1, hnb, hW]

/-- Settles O33: in each case the row's word and length are those of the request's frame. -/
theorem encSircIsTheFrameRowItsOperandsChoose : Obligations.EncSircIsTheFrameRowItsOperandsChoose := by
  intro s hc
  refine ⟨fun hx hd hf => ?sirc12, fun hx hd hw => ?sirc15, fun hx he hd hf => ?sirc20, fun hx he hd hf => ?sirc23⟩
  case sirc12 =>
    have haccepted : SircAccepted s.req := ⟨hc, by simp [hx], fun _ => by omega⟩
    have hwidth : sircDeviceWidth s.req.device s.req.force8 = 5 := hf ▸ sircDeviceWidth_short hd
    refine haccepted.exec_eq_row rfl (sircFrameBits_eq hwidth hx) ?_
    rw [sircFrameWord_plain hx, Laws.sirc12Word_eq, BitVec.toNat_ofNat, BitVec.toNat_ofNat, Nat.mod_eq_of_lt hd]
  case sirc15 =>
    have haccepted : SircAccepted s.req := ⟨hc, by simp [hx], fun _ => hd⟩
    have hwidth : sircDeviceWidth s.req.device s.req.force8 = 8 := sircDeviceWidth_long hw
    refine haccepted.exec_eq_row rfl (sircFrameBits_eq hwidth hx) ?_
    rw [sircFrameWord_plain hx, Laws.sirc15Word_eq, BitVec.toNat_ofNat, BitVec.toNat_ofNat, Nat.mod_eq_of_lt hd]
  case sirc20 =>
    have haccepted : SircAccepted s.req := ⟨hc, fun _ => ⟨he, hd⟩, by simp [hx]⟩
    have hwidth : sircDeviceWidth s.req.device s.req.force8 = 5 := hf ▸ sircDeviceWidth_short hd
    refine haccepted.exec_eq_row rfl (sircFrameBits_eq hwidth hx) ?_
    rw [sircFrameWord_extended hx, hwidth, Laws.sirc20Word_eq, BitVec.toNat_ofNat, BitVec.toNat_ofNat, BitVec.toNat_ofNat,
      Nat.mod_eq_of_lt hd, Nat.mod_eq_of_lt he]
  case sirc23 =>
    have haccepted : SircAccepted s.req := ⟨hc, fun _ => ⟨he, hd⟩, by simp [hx]⟩
    have hwidth : sircDeviceWidth s.req.device s.req.force8 = 8 := sircDeviceWidth_long (.inr hf)
    have hbyte : (BitVec.ofNat 8 s.req.device).toNat = s.req.device := by
      rw [BitVec.toNat_ofNat, Nat.mod_eq_of_lt (by omega)]
    refine ⟨decide_eq_true (hbyte.symm ▸ hd), haccepted.exec_eq_row rfl (sircFrameBits_eq hwidth hx) ?_⟩
    rw [sircFrameWord_extended hx, hwidth, Laws.sirc23Word_eq, hbyte, BitVec.toNat_ofNat, BitVec.toNat_ofNat,
      Nat.mod_eq_of_lt he]

/-! ## The command -/

/-- Commands below the limit that agree in their low seven bits are answered alike: the check on the command passes both, and no
other bit of them is sent. -/
theorem encodeSirc_command_congr {c c' : Nat} (hc : c < 2 ^ 12) (hc' : c' < 2 ^ 12) (h : c % 2 ^ 7 = c' % 2 ^ 7)
    (device : Nat) (extPresent : Bool) (ext : Nat) (force8 : Bool) :
    encodeSirc c device extPresent ext force8 = encodeSirc c' device extPresent ext force8 := by
  have hcheck : sircCheck c device extPresent ext = sircCheck c' device extPresent ext := by
    have hpass : ¬ 4096 ≤ c := by omega
    have hpass' : ¬ 4096 ≤ c' := by omega
    rw [Laws.sircCheck_eq, Laws.sircCheck_eq, if_neg hpass, if_neg hpass']
  rw [encodeSirc, encodeSirc, hcheck, sircPulses_command_mod, h, ← sircPulses_command_mod]

theorem encodeSirc_ne_invalidCommand {command : Nat} (hc : command < 2 ^ 12) (device : Nat) (extPresent : Bool) (ext : Nat)
    (force8 : Bool) : encodeSirc command device extPresent ext force8 ≠ .raise .invalidCommand := by
  rw [encodeSirc, Laws.sircCheck_eq, if_neg (by omega)]
  split_ifs <;> simp

/-- Settles O34: both requests have one answer, and it is no InvalidCommand. -/
theorem encSircSendsSevenCommandBits : Obligations.EncSircSendsSevenCommandBits := by
  intro s command hc hc' hmod
  have hanswer := encodeSirc_command_congr hc hc' hmod.symm s.req.device s.req.extPresent s.req.ext s.req.force8
  have hne := encodeSirc_ne_invalidCommand hc s.req.device s.req.extPresent s.req.ext s.req.force8
  obtain ⟨r, hr, hr'⟩ := exec_same_response (i := .encSirc) (s := s)
    (t := { s with req := { s.req with command := command } }) hanswer
  refine ⟨r, ?_, hr, hr'⟩
  rintro rfl
  exact hne (exec_eq_error_iff.mp hr)

/-! ## The length of a frame in time -/

/-- Where a symbol of 0 lasts `base` and a symbol of 1, the one with the long duration, `extra` more, a serialization lasts as
long as its symbols and its ones make it. -/
theorem sum_flatMap_symbol {symbol : Bool → List Pulse} {long : Pulse} {base extra : Nat}
    (h : ∀ b, ((symbol b).map BitVec.toNat).sum = base + extra * (symbol b).count long) (bs : List Bool) :
    ((bs.flatMap symbol).map BitVec.toNat).sum = base * bs.length + extra * (bs.flatMap symbol).count long := by
  induction bs with
  | nil => rfl
  | cons b bs ih =>
    simp only [List.flatMap_cons, List.map_append, List.sum_append, List.count_append, List.length_cons, ih, h]
    ring

/-- A symbol of the SIRC code lasts 1200, and 600 more for a 1. -/
theorem v2pSirc_sum (v w : Nat) :
    ((v2pSirc v w).map BitVec.toNat).sum = 1200 * w + 600 * (v2pSirc v w).count 1200 := by
  have hsymbol : ∀ b, ((sircSymbol b).map BitVec.toNat).sum = 1200 + 600 * (sircSymbol b).count 1200 := by decide
  rw [v2pSirc, sum_flatMap_symbol hsymbol, Laws.bitsOf_length]

/-- The space a frame leaves out is that of its last symbol. -/
theorem sircFramePulses_append_space {nb : Nat} (W : Nat) (hnb : 0 < nb) :
    sircFramePulses nb W ++ [600] = 2400 :: 600 :: v2pSirc W nb := by
  have hlast : (2400 :: 600 :: v2pSirc W nb).getLast? = some (600 : Pulse) := by
    have hindex : (2400 :: 600 :: v2pSirc W nb).length - 1 = 2 * (nb - 1) + 1 + 1 + 1 := by
      simp only [List.length_cons, Laws.v2pSirc_length]
      omega
    rw [List.getLast?_eq_getElem?, hindex, List.getElem?_cons_succ, List.getElem?_cons_succ,
      Laws.v2pSirc_space W nb (nb - 1) (by omega)]
  rw [sircFramePulses_eq, List.dropLast_append_getLast? _ hlast]

theorem sircFramePulses_sum {nb : Nat} (W : Nat) (hnb : 0 < nb) :
    ((sircFramePulses nb W).map BitVec.toNat).sum = 2400 + 1200 * nb + 600 * (sircFramePulses nb W).count 1200 := by
  have happend := sircFramePulses_append_space W hnb
  have hsum : ((sircFramePulses nb W).map BitVec.toNat).sum 
      + 600 = 2400 + (600 + ((v2pSirc W nb).map BitVec.toNat).sum) := by
    simpa using congrArg (fun Q => (Q.map BitVec.toNat).sum) happend
  have hcount : (sircFramePulses nb W).count 1200 = (v2pSirc W nb).count 1200 := by
    simpa using congrArg (List.count 1200) happend
  rw [v2pSirc_sum, ← hcount] at hsum
  omega

/-- Settles O36: the pulses are the frame of a word, whose number of bits their length tells. -/
theorem sircFrameDurationsSum : Obligations.SircFrameDurationsSum := by
  intro s t Q nb h hQ hlength
  obtain ⟨-, rfl⟩ := encSirc_pulses (answer_of_rsp_ok h hQ)
  rw [sircFramePulses_length] at hlength
  obtain rfl : sircFrameBits s.req = nb := by omega
  refine sircFramePulses_sum _ ?_
  rw [sircFrameBits]
  omega

end Sys2Proof.Proofs
end

section
/-! The fields of the bits a decoder reads (R11, R13, R90): what a field holds for the bits of a number, and for the pairs of a
sequence. -/

namespace Sys2Proof.Proofs

open Sys2Proof Sys2Proof.Machine Sys2Proof.Safety

/-- The byte that holds bits `lo` to `hi - 1` of a bit sequence, the first least significant. -/
def bitField (b : List Bool) (lo hi : Nat) : Byte :=
  BitVec.ofNat 8 (valueOf (slice b lo hi))

theorem valueOf_slice_lt (b : List Bool) (lo hi : Nat) : valueOf (slice b lo hi) < 2 ^ (hi - lo) := by
  have hlength : (slice b lo hi).length ≤ hi - lo := by
    rw [slice, List.length_drop, List.length_take]
    omega
  exact (Laws.valueOf_lt _).trans_le (Nat.pow_le_pow_right (by decide) hlength)

/-- A field of at most eight bits fits a byte. -/
theorem bitField_toNat (b : List Bool) {lo hi : Nat} (h : hi - lo ≤ 8) :
    (bitField b lo hi).toNat = valueOf (slice b lo hi) :=
  Nat.mod_eq_of_lt ((valueOf_slice_lt b lo hi).trans_le (Nat.pow_le_pow_right (by decide) h))

theorem bitField_lt (b : List Bool) {lo hi : Nat} (h : hi - lo ≤ 8) : (bitField b lo hi).toNat < 2 ^ (hi - lo) := by
  rw [bitField_toNat b h]
  exact valueOf_slice_lt b lo hi

theorem bitField_getLsbD (b : List Bool) {lo hi k : Nat} (hk : k < 8) (hhi : lo + k < hi) :
    (bitField b lo hi).getLsbD k = b.getD (lo + k) false := by
  rw [bitField, getLsbD_byte_ofNat _ hk, Laws.valueOf_testBit, List.getD_eq_getElem?_getD,
    Laws.slice_getElem? b lo hi k hhi, List.getD_eq_getElem?_getD]

/-! ## The bits of a number -/

theorem slice_bitsOf (v : Nat) {w lo hi : Nat} (hhi : hi ≤ w) :
    slice (bitsOf v w) lo hi = bitsOf (v >>> lo) (hi - lo) := by
  apply List.ext_getElem?
  intro k
  obtain hk | hk := Nat.lt_or_ge k (hi - lo)
  · rw [Laws.slice_getElem? _ lo hi k (by omega), Laws.bitsOf_getElem? v w _ (by omega),
      Laws.bitsOf_getElem? _ _ k hk, Nat.testBit_shiftRight]
  · have hlength : (slice (bitsOf v w) lo hi).length = hi - lo :=
      Laws.slice_length _ _ _ (by rwa [Laws.bitsOf_length])
    rw [List.getElem?_eq_none (by omega), List.getElem?_eq_none (by rwa [Laws.bitsOf_length])]

theorem bitField_bitsOf (v : Nat) {w lo hi : Nat} (hhi : hi ≤ w) :
    bitField (bitsOf v w) lo hi = BitVec.ofNat 8 (v / 2 ^ lo % 2 ^ (hi - lo)) := by
  rw [bitField, slice_bitsOf v hhi, valueOf_bitsOf, Nat.shiftRight_eq_div_pow]

/-! ## The pairs of a sequence -/

theorem pairBits_length (P : List Pulse) (base n : Nat) : (pairBits P base n).length = n := by
  rw [pairBits, List.length_map, List.length_range]

theorem pairBits_getD (P : List Pulse) (base : Nat) {n k : Nat} (hk : k < n) :
    (pairBits P base n).getD k false = classifyPair (P.getD (base + 2 * k) 0) (P.getD (base + 2 * k + 1) 0) := by
  simp [pairBits, hk]

/-- Pairs that classify alike carry the same bits. -/
theorem pairBits_congr {P P' : List Pulse} {base n : Nat}
    (h : ∀ k < n, classifyPair (P.getD (base + 2 * k) 0) (P.getD (base + 2 * k + 1) 0)
      = classifyPair (P'.getD (base + 2 * k) 0) (P'.getD (base + 2 * k + 1) 0)) :
    pairBits P base n = pairBits P' base n :=
  List.map_congr_left fun k hk => h k (List.mem_range.mp hk)

/-- Pairs of a mark and a space that carry the bits of a number are read as that number's bits. -/
theorem pairBits_eq_bitsOf {P : List Pulse} {base n W : Nat}
    (h : ∀ k < n, classifyPair (P.getD (base + 2 * k) 0) (P.getD (base + 2 * k + 1) 0) = W.testBit k) :
    pairBits P base n = bitsOf W n :=
  List.map_congr_left fun k hk => h k (List.mem_range.mp hk)

/-- Bit `k` of a field is the ratio test of its pair (R93). -/
theorem bitField_pairBits_getLsbD (P : List Pulse) (base : Nat) {n lo hi k : Nat} (hk : k < 8) (hhi : lo + k < hi)
    (hn : hi ≤ n) :
    (bitField (pairBits P base n) lo hi).getLsbD k
      = decide (4 * dur P (base + 1 + 2 * (lo + k)) > 7 * dur P (base + 2 * (lo + k))) := by
  have hindex : base + 1 + 2 * (lo + k) = base + 2 * (lo + k) + 1 := by omega
  rw [bitField_getLsbD _ hk hhi, pairBits_getD P base (hhi.trans_le hn), hindex]
  rfl

end Sys2Proof.Proofs
end

section
/-! The SIRC decoder (42_sirc_decoder.md). A good count and header leave the fields of the pairs; the pairs of a frame are the
bits of its word, so a frame reads back as the fields of the word. -/

namespace Sys2Proof.Proofs

open Sys2Proof Sys2Proof.Machine Sys2Proof.Safety

/-! ## The checks -/

theorem decSircAnswer_of_count {P : List Pulse} (h : P.length ∉ [25, 31, 41]) :
    decSircAnswer P = .raise .invalidPulseCount :=
  if_pos h

theorem decSircAnswer_of_header {P : List Pulse} (h : P.length ∈ [25, 31, 41])
    (hheader : dur P 0 < 2200 ∨ 2600 < dur P 0) :
    decSircAnswer P = .raise .invalidHeader := by
  rw [decSircAnswer, if_neg (not_not_intro h), if_pos ((Laws.inWindow_false_iff _ _ _).mpr hheader)]

theorem decSircAnswer_of_good {P : List Pulse} (h : P.length ∈ [25, 31, 41]) (hlo : 2200 ≤ dur P 0)
    (hhi : dur P 0 ≤ 2600) :
    decSircAnswer P = .ok (sircFields P.length (pairBits P 1 ((P.length - 1) / 2))) := by
  have hheader : inWindow (P.getD 0 0) 2200 2600 = true := (Laws.inWindow_true_iff _ _ _).mpr ⟨hlo, hhi⟩
  rw [decSircAnswer, if_neg (not_not_intro h), hheader, if_neg (by decide)]

/-- Settles O39: the first check that fails decides. -/
theorem decSircErrorsInOrder : Obligations.DecSircErrorsInOrder := fun _ =>
  ⟨fun h => exec_of_answer_raise (decSircAnswer_of_count h),
    fun h hheader => exec_of_answer_raise (decSircAnswer_of_header h hheader)⟩

/-! ## The fields of the three counts -/

theorem sircFields_short {b : List Bool} (hb : b.length = 12) :
    sircFields 25 b = .sirc2 (bitField b 0 7) (bitField b 7 12) := by
  have hempty : (slice b 12 b.length).isEmpty = true := by simp [slice, hb]
  simp only [sircFields, if_neg (by decide : ¬ 25 = Const.sirc15Count), hempty, if_true]
  rfl

theorem sircFields_long (b : List Bool) : sircFields 31 b = .sirc2 (bitField b 0 7) (bitField b 7 15) := rfl

theorem sircFields_extended {b : List Bool} (hb : b.length = 20) :
    sircFields 41 b = .sirc3 (bitField b 0 7) (bitField b 7 12) (bitField b 12 20) := by
  have hempty : (slice b 12 b.length).isEmpty = false := by simp [slice, hb]
  simp only [sircFields, if_neg (by decide : ¬ 41 = Const.sirc15Count), hempty]
  rw [hb]
  rfl

section
variable (P : List Pulse) {n k : Nat}

/-- Bit `k` of the command, the first field of a SIRC frame (R114). -/
theorem sircCommand_getLsbD (hk : k < 7) (hn : 7 ≤ n) :
    (bitField (pairBits P 1 n) 0 7).getLsbD k = decide (4 * dur P (2 + 2 * k) > 7 * dur P (1 + 2 * k)) := by
  rw [bitField_pairBits_getLsbD P 1 (by omega) (by omega) hn, Nat.zero_add]

/-- Bit `k` of the device, which follows the command (R114). -/
theorem sircDevice_getLsbD {hi : Nat} (hk : k < 8) (hhi : 7 + k < hi) (hn : hi ≤ n) :
    (bitField (pairBits P 1 n) 7 hi).getLsbD k = decide (4 * dur P (2 + 2 * (7 + k)) > 7 * dur P (1 + 2 * (7 + k))) :=
  bitField_pairBits_getLsbD P 1 hk hhi hn

end

/-- Settles O40: for each count the answer's fields are bit fields of the pairs, whose bits are the ratio tests. -/
theorem decSircSplitsTheFrame : Obligations.DecSircSplitsTheFrame := by
  intro s hlo hhi
  refine ⟨fun hn => ?short, fun hn => ?long, fun hn => ?extended⟩
  case short =>
    have hgood := decSircAnswer_of_good (by simp [hn]) hlo hhi
    rw [hn, sircFields_short (pairBits_length _ _ _)] at hgood
    exact ⟨_, _, exec_of_answer_ok hgood, bitField_lt _ (by decide), bitField_lt _ (by decide),
      fun k hk => sircCommand_getLsbD _ hk (by decide), fun k hk => sircDevice_getLsbD _ (by omega) (by omega) (by decide)⟩
  case long =>
    have hgood := decSircAnswer_of_good (by simp [hn]) hlo hhi
    rw [hn, sircFields_long] at hgood
    exact ⟨_, _, exec_of_answer_ok hgood, bitField_lt _ (by decide),
      fun k hk => sircCommand_getLsbD _ hk (by decide), fun k hk => sircDevice_getLsbD _ (by omega) (by omega) (by decide)⟩
  case extended =>
    have hgood := decSircAnswer_of_good (by simp [hn]) hlo hhi
    rw [hn, sircFields_extended (pairBits_length _ _ _)] at hgood
    exact ⟨_, _, _, exec_of_answer_ok hgood, bitField_lt _ (by decide), bitField_lt _ (by decide),
      fun k hk => sircCommand_getLsbD _ hk (by decide), fun k hk => sircDevice_getLsbD _ (by omega) (by omega) (by decide),
      fun k hk => bitField_pairBits_getLsbD _ _ hk (by omega) (by decide)⟩

/-- The pairs of sequences that classify alike, in the terms claims use. -/
theorem pairBits_congr_dur {P P' : List Pulse} {n : Nat}
    (h : ∀ k < n, (4 * dur P (2 + 2 * k) > 7 * dur P (1 + 2 * k) ↔ 4 * dur P' (2 + 2 * k) > 7 * dur P' (1 + 2 * k))) :
    pairBits P 1 n = pairBits P' 1 n := by
  refine pairBits_congr fun k hk => ?_
  have hindex : 1 + 2 * k + 1 = 2 + 2 * k := by omega
  rw [hindex]
  exact decide_eq_decide.mpr (h k hk)

/-- Settles O41: a bad count is answered alike, and after a good header the answer is a function of the length and the bits of the
pairs. -/
theorem decSircJudgesByRatioAlone : Obligations.DecSircJudgesByRatioAlone := by
  intro a b t u hlength halo hahi hblo hbhi hpairs ha hb
  have hanswer : decSircAnswer a.req.P = decSircAnswer b.req.P := by
    by_cases hn : a.req.P.length ∈ [25, 31, 41]
    · rw [decSircAnswer_of_good hn halo hahi, decSircAnswer_of_good (hlength ▸ hn) hblo hbhi,
        pairBits_congr_dur hpairs, hlength]
    · rw [decSircAnswer_of_count hn, decSircAnswer_of_count (hlength ▸ hn)]
  exact rsp_eq_of_answer_eq ha hb hanswer

/-! ## Reading back -/

/-- The pairs of a frame carry the bits of its word. -/
theorem pairBits_sircFramePulses (nb W : Nat) : pairBits (sircFramePulses nb W) 1 nb = bitsOf W nb := by
  refine pairBits_eq_bitsOf fun k hk => ?_
  have hindex : 1 + 2 * k + 1 = 2 + 2 * k := by omega
  rw [hindex, List.getD_eq_getElem?_getD, List.getD_eq_getElem?_getD, sircFramePulses_space W hk, sircFramePulses_mark W hk]
  exact classifyPair_sircSymbol _

/-- DEC_SIRC reads the fields of the word of a frame of 12, 15 or 20 data bits. -/
theorem decSircAnswer_frame {nb : Nat} (hnb : nb ∈ [12, 15, 20]) (W : Nat) :
    decSircAnswer (sircFramePulses nb W) = .ok (sircFields (2 * nb + 1) (bitsOf W nb)) := by
  have hcount : (sircFramePulses nb W).length ∈ [25, 31, 41] := by
    rw [sircFramePulses_length]
    simp only [List.mem_cons, List.not_mem_nil, or_false] at hnb ⊢
    omega
  have hpos : 0 < nb := Nat.pos_of_ne_zero (by rintro rfl; simp at hnb)
  have hheader : dur (sircFramePulses nb W) 0 = 2400 := by
    rw [dur, List.getD_eq_getElem?_getD, (sircFramePulses_header nb W hpos).1]
    rfl
  have hbits : (2 * nb + 1 - 1) / 2 = nb := by omega
  rw [decSircAnswer_of_good hcount (by omega) (by omega), sircFramePulses_length, hbits, pairBits_sircFramePulses]

theorem decSircAnswer_sirc12 (W : Nat) : decSircAnswer (sircFramePulses 12 W)
    = .ok (.sirc2 (BitVec.ofNat 8 (W % 2 ^ 7)) (BitVec.ofNat 8 (W / 2 ^ 7 % 2 ^ 5))) := by
  rw [decSircAnswer_frame (by decide), sircFields_short (Laws.bitsOf_length _ _), bitField_bitsOf _ (by decide),
    bitField_bitsOf _ (by decide), Nat.pow_zero, Nat.div_one]

theorem decSircAnswer_sirc15 (W : Nat) : decSircAnswer (sircFramePulses 15 W)
    = .ok (.sirc2 (BitVec.ofNat 8 (W % 2 ^ 7)) (BitVec.ofNat 8 (W / 2 ^ 7 % 2 ^ 8))) := by
  rw [decSircAnswer_frame (by decide), sircFields_long, bitField_bitsOf _ (by decide),
    bitField_bitsOf _ (by decide), Nat.pow_zero, Nat.div_one]

theorem decSircAnswer_sirc20 (W : Nat) : decSircAnswer (sircFramePulses 20 W)
    = .ok (.sirc3 (BitVec.ofNat 8 (W % 2 ^ 7)) (BitVec.ofNat 8 (W / 2 ^ 7 % 2 ^ 5))
        (BitVec.ofNat 8 (W / 2 ^ 12 % 2 ^ 8))) := by
  rw [decSircAnswer_frame (by decide), sircFields_extended (Laws.bitsOf_length _ _), bitField_bitsOf _ (by decide),
    bitField_bitsOf _ (by decide), bitField_bitsOf _ (by decide), Nat.pow_zero, Nat.div_one]

/-- What DEC_SIRC answers to a sequence it answers to the request that holds it. -/
theorem exec_decSirc_of_pulses {Q : List Pulse} {v : Success} (h : decSircAnswer Q = .ok v) {d : State} (hd : d.req.P = Q) :
    exec .decSirc d = .next { d with rsp := .ok v, pending := false } :=
  exec_of_answer_ok (i := .decSirc) (by rw [← h, ← hd]; rfl)

/-- Settles O37: the request is sent as the frame of its word in 12 or 15 bits, whose two fields are the low command bits and the
device. -/
theorem sircRoundTrip : Obligations.SircRoundTrip := by
  intro s hc hx hd
  have haccepted : SircAccepted s.req := ⟨hc, by simp [hx], fun _ => hd⟩
  refine ⟨_, exec_of_answer_ok haccepted.answer_eq, fun d => exec_decSirc_of_pulses ?_⟩
  have hcommand : sircFrameWord s.req % 2 ^ 7 = s.req.command % 2 ^ 7 := by
    rw [sircFrameWord_plain hx]
    omega
  by_cases hw : 2 ^ 5 ≤ s.req.device ∨ s.req.force8 = true
  · have hbits : sircFrameBits s.req = 15 := sircFrameBits_eq (sircDeviceWidth_long hw) hx
    have hdevice : sircFrameWord s.req / 2 ^ 7 % 2 ^ 8 = s.req.device := by
      rw [sircFrameWord_plain hx]
      omega
    rw [hbits, decSircAnswer_sirc15, hcommand, hdevice]
  · obtain ⟨hshort, hforce⟩ := not_or.mp hw
    rw [Bool.not_eq_true] at hforce
    have hbits : sircFrameBits s.req = 12 :=
      sircFrameBits_eq (hforce ▸ sircDeviceWidth_short (Nat.not_le.mp hshort)) hx
    have hdevice : sircFrameWord s.req / 2 ^ 7 % 2 ^ 5 = s.req.device := by
      rw [sircFrameWord_plain hx]
      omega
    rw [hbits, decSircAnswer_sirc12, hcommand, hdevice]

/-- Settles O38: the request is sent as the frame of its word in 20 bits, whose three fields are the low command bits, the device
and the extended device. -/
theorem sircExtendedRoundTrip : Obligations.SircExtendedRoundTrip := by
  intro s hc hx hd he hforce
  have haccepted : SircAccepted s.req := ⟨hc, fun _ => ⟨he, hd⟩, by simp [hx]⟩
  refine ⟨_, exec_of_answer_ok haccepted.answer_eq, fun d => exec_decSirc_of_pulses ?_⟩
  have hwidth : sircDeviceWidth s.req.device s.req.force8 = 5 := hforce ▸ sircDeviceWidth_short hd
  have hbits : sircFrameBits s.req = 20 := sircFrameBits_eq hwidth hx
  have hword : sircFrameWord s.req = s.req.command % 2 ^ 7 + s.req.device * 2 ^ 7 + s.req.ext * 2 ^ 12 := by
    rw [sircFrameWord_extended hx, hwidth]
  have hcommand : sircFrameWord s.req % 2 ^ 7 = s.req.command % 2 ^ 7 := by omega
  have hdevice : sircFrameWord s.req / 2 ^ 7 % 2 ^ 5 = s.req.device := by omega
  have hext : sircFrameWord s.req / 2 ^ 12 % 2 ^ 8 = s.req.ext := by omega
  rw [hbits, decSircAnswer_sirc20, hcommand, hdevice, hext]

/-- Settles O35: the request is sent as a frame of 23 data bits, and DEC_SIRC knows no sequence of 47 pulses. -/
theorem force8WithExtendedCannotBeReadBack : Obligations.Force8WithExtendedCannotBeReadBack := by
  intro s hc hx he hd hforce
  have haccepted : SircAccepted s.req := ⟨hc, fun _ => ⟨he, hd⟩, by simp [hx]⟩
  have hbits : sircFrameBits s.req = 23 := sircFrameBits_eq (sircDeviceWidth_long (.inr hforce)) hx
  have hlength : (sircFramePulses (sircFrameBits s.req) (sircFrameWord s.req)).length = 47 := by
    rw [sircFramePulses_length, hbits]
  refine ⟨_, exec_of_answer_ok haccepted.answer_eq, hlength, fun d hP => ?_⟩
  exact exec_of_answer_raise (i := .decSirc) (decSircAnswer_of_count (by rw [hP, hlength]; decide))

end Sys2Proof.Proofs
end

section
/-! The NEC encoder's answers (43_nec_encoder.md), about the frame word of an accepted request's four bytes, the addresses that are
refused, and how long a frame lasts. -/

namespace Sys2Proof.Proofs

open Sys2Proof Sys2Proof.Machine

/-! ## The frame row -/

/-- Settles O7: the index map of the row's word, whose bits are those of its bytes. -/
theorem necFrameRowEmitsItsIndexMap : Obligations.NecFrameRowEmitsItsIndexMap := fun l h c i _ =>
  ⟨necFramePulses (nec32Word l h c i), exec_of_answer_ok (i := .nec32 l h c i) rfl, necFramePulses_length _, rfl, rfl,
    necFramePulses_trail _, fun _ hk => necFramePulses_mark _ hk, fun _ hj => necFramePulses_byte_spaces l h c i hj⟩

/-! ## The operand checks -/

/-- Settles O42: each clause says that the checks before one pass and that one fails. -/
theorem encNecErrorsInOrder : Obligations.EncNecErrorsInOrder := by
  intro s
  simp only [exec_encNec_eq_error_iff]
  refine ⟨fun hc => ?_, fun hc ha => ?_, fun hc hlo hhi hamb => ?_⟩
  · rw [Laws.necCheck_eq, if_pos (by omega)]
  · rw [Laws.necCheck_eq, if_neg (by omega), if_pos (by omega)]
  · rw [necCheck_wide hc hlo hhi, if_pos hamb]

/-- An address in range is refused exactly when it is a 16-bit one whose low byte is the complement of its high byte. -/
theorem necCheck_eq_invalidAddress_iff {address command : Nat} (hc : command < 2 ^ 8) (ha : address < 2 ^ 16) :
    necCheck address command = some .invalidAddress ↔ 2 ^ 8 ≤ address ∧ address % 256 = 255 - address / 256 := by
  obtain hlegacy | hwide := Nat.lt_or_ge address (2 ^ 8)
  · rw [necCheck_accepts_legacy hc hlegacy]
    exact iff_of_false (by simp) (by omega)
  · rw [necCheck_wide hc hwide ha, and_iff_right hwide]
    simp

/-- The reserved address whose high byte is `n + 1`. -/
def reservedAddress (n : Nat) : Nat :=
  (n + 1) * 256 + (255 - (n + 1))

theorem reservedAddress_injective : Function.Injective reservedAddress := by
  intro m n h
  simp only [reservedAddress] at h
  omega

/-- An ambiguous 16-bit address is the reserved one of its high byte. -/
theorem exists_reservedAddress_iff {address : Nat} (ha : address < 2 ^ 16) :
    (∃ n < 255, reservedAddress n = address) ↔ 2 ^ 8 ≤ address ∧ address % 256 = 255 - address / 256 := by
  simp only [reservedAddress]
  refine ⟨fun ⟨n, hn, h⟩ => ⟨by omega, by omega⟩, fun ⟨hlo, hamb⟩ => ⟨address / 256 - 1, by omega, by omega⟩⟩

/-- Settles O46: the refused addresses are the reserved ones, and different high bytes give different addresses. -/
theorem reservedNecAddressesAre255 : Obligations.ReservedNecAddressesAre255 := by
  refine ⟨(List.range 255).map reservedAddress, rfl, List.nodup_range.map reservedAddress_injective, fun s hc ha => ?_⟩
  rw [exec_encNec_eq_error_iff, necCheck_eq_invalidAddress_iff hc ha, ← exists_reservedAddress_iff ha]
  simp only [List.mem_map, List.mem_range]

/-! ## The four bytes of an accepted request -/

theorem encodeNec_of_accepted {address command : Nat} (h : necCheck address command = none) :
    encodeNec address command = .ok (.pulses (necPulses address command)) := by
  rw [encodeNec, h]

theorem ofNat_necAddressLow (address : Nat) : BitVec.ofNat 8 (necAddressLow address) = BitVec.ofNat 8 address := by
  rw [Laws.necAddressLow_eq]
  exact BitVec.eq_of_toNat_eq (by simp)

/-- R123: the high byte is the complement of the low one in legacy mode. -/
theorem ofNat_necAddressHigh (address : Nat) :
    BitVec.ofNat 8 (necAddressHigh address)
      = if address < 2 ^ 8 then ~~~BitVec.ofNat 8 address else BitVec.ofNat 8 (address >>> 8) := by
  rw [Laws.necAddressHigh_eq]
  apply BitVec.eq_of_toNat_eq
  obtain hlegacy | hwide := Nat.lt_or_ge address (2 ^ 8)
  · rw [if_pos (by omega), if_pos hlegacy, BitVec.toNat_ofNat, BitVec.toNat_not, BitVec.toNat_ofNat]
    omega
  · rw [if_neg (by omega), if_neg (by omega)]
    simp [Nat.shiftRight_eq_div_pow]

/-- Settles O44: both answer the frame of one word, which is the sum of the four bytes set one above the other. -/
theorem encNecIsTheFrameRowOfItsBytes : Obligations.EncNecIsTheFrameRowOfItsBytes := by
  rintro s _ _ _ hc ha hamb rfl rfl rfl
  refine ⟨exec_eq_of_answer_eq ?_, decide_eq_true rfl, congrArg _ (Laws.nec32Word_eq _ _ _ _)⟩
  simp only [answer]
  rw [encodeNec_of_accepted (necCheck_accepts hc ha hamb), necPulses_eq_frame, ofNat_necAddressLow, ofNat_necAddressHigh]

/-! ## The length of a frame in time -/

/-- The ones among the bits of a number. -/
theorem v2pNec_count (v w : Nat) : (v2pNec v w).count 1690 = (bitsOf v w).count true := by
  rw [v2pNec]
  induction bitsOf v w with
  | nil => rfl
  | cons b bs ih =>
    have hsymbol : (necSymbol b).count 1690 = [b].count true := by cases b <;> decide
    rw [List.flatMap_cons, List.count_append, ih, hsymbol, ← List.count_append, List.singleton_append]

/-- A symbol of the NEC code lasts 1120, and 1130 more for a 1. -/
theorem v2pNec_sum (v w : Nat) :
    ((v2pNec v w).map BitVec.toNat).sum = 1120 * w + 1130 * (v2pNec v w).count 1690 := by
  have hsymbol : ∀ b, ((necSymbol b).map BitVec.toNat).sum = 1120 + 1130 * (necSymbol b).count 1690 := by decide
  rw [v2pNec, sum_flatMap_symbol hsymbol, Laws.bitsOf_length]

theorem count_true_add_count_true_not (bs : List Bool) : bs.count true + (bs.map not).count true = bs.length := by
  induction bs with
  | nil => rfl
  | cons b bs ih =>
    cases b <;> simp <;> omega

theorem bitsOf_comp8 (a : Nat) : bitsOf (comp8 a) 8 = (bitsOf a 8).map not := by
  rw [bitsOf, bitsOf, List.map_map]
  exact List.map_congr_left fun k hk => Laws.comp8_testBit a k (List.mem_range.mp hk)

/-- A byte and its complement hold eight ones. -/
theorem v2pNec_count_add_comp8 (a : Nat) : (v2pNec a 8).count 1690 + (v2pNec (comp8 a) 8).count 1690 = 8 := by
  rw [v2pNec_count, v2pNec_count, bitsOf_comp8, count_true_add_count_true_not, Laws.bitsOf_length]

theorem necPulses_count (address command : Nat) :
    (necPulses address command).count 1690
      = (v2pNec (necAddressLow address) 8).count 1690 + (v2pNec (necAddressHigh address) 8).count 1690 + 8 := by
  have hagc : [Const.necAgcMark, Const.necAgcSpace].count 1690 = 0 := by decide
  have htrail : [Const.necTrailMark].count 1690 = 0 := by decide
  have hcommand := v2pNec_count_add_comp8 command
  simp only [necPulses, List.count_append, hagc, htrail]
  omega

theorem necPulses_sum (address command : Nat) :
    ((necPulses address command).map BitVec.toNat).sum = 49900 + 1130 * (necPulses address command).count 1690 := by
  have hagc : ([Const.necAgcMark, Const.necAgcSpace].map BitVec.toNat).sum = 13500 := by decide
  have htrail : ([Const.necTrailMark].map BitVec.toNat).sum = 560 := by decide
  have hcommand := v2pNec_count_add_comp8 command
  rw [necPulses_count]
  simp only [necPulses, List.map_append, List.sum_append, v2pNec_sum, hagc, htrail]
  omega

/-- The pulses from 34 on are the command, its complement and the trailing mark. -/
theorem necPulses_drop (address command : Nat) :
    (necPulses address command).drop 34 = v2pNec command 8 ++ v2pNec (comp8 command) 8 ++ [Const.necTrailMark] := by
  have hfront : ([Const.necAgcMark, Const.necAgcSpace] ++ v2pNec (necAddressLow address) 8
      ++ v2pNec (necAddressHigh address) 8).length = 34 := by
    simp [Laws.v2pNec_length]
  rw [necPulses, List.append_assoc _ _ [Const.necTrailMark], List.append_assoc _ (v2pNec command 8) _,
    List.drop_left' hfront, List.append_assoc]

theorem necPulses_count_legacy {address : Nat} (ha : address < 2 ^ 8) (command : Nat) :
    (necPulses address command).count 1690 = 16 := by
  have hlow : necAddressLow address = address := if_pos ha
  have hhigh : necAddressHigh address = comp8 address := if_pos ha
  rw [necPulses_count, hlow, hhigh, v2pNec_count_add_comp8]

/-- Settles O47: a frame has 49,900 besides its ones, and each byte sent with its complement brings eight. -/
theorem necFrameDurationsSum : Obligations.NecFrameDurationsSum := by
  intro s t Q h hQ
  obtain rfl := encodeNec_pulses (answer_of_rsp_ok h hQ)
  refine ⟨necPulses_sum _ _, ?_, fun ha => ⟨necPulses_count_legacy ha _, ?_⟩⟩
  · have htrail : [Const.necTrailMark].count 1690 = 0 := by decide
    rw [necPulses_drop, List.count_append, List.count_append, v2pNec_count_add_comp8, htrail]
  · rw [necPulses_sum, necPulses_count_legacy ha]

end Sys2Proof.Proofs
end

section
/-! The NEC decoder (44_nec_decoder.md). After the checks its answer is a function of four bytes, read off the pairs; the pairs of
a frame are the bits of its word, so a frame reads back as the word's bytes. -/

namespace Sys2Proof.Proofs

open Sys2Proof Sys2Proof.Machine Sys2Proof.Safety

/-! ## The four bytes -/

/-- What DEC_NEC answers to the low and high address byte, the command and the inverted command of a frame (R130, R134). -/
def necAnswer (l h c i : Byte) : Result :=
  if i = ~~~c then
    .ok (.necCmd (BitVec.ofNat 16 (if h = ~~~l then l.toNat else h.toNat * 256 + l.toNat)) c)
  else .raise .checksumMismatch

theorem toNat_eq_comp8_iff (a b : Byte) : a.toNat = comp8 b.toNat ↔ a = ~~~b := by
  rw [← BitVec.toNat_inj, comp8, BitVec.ofNat_toNat, BitVec.setWidth_eq]

theorem necAddress_bytes (l h : Byte) :
    necAddress l.toNat h.toNat = if h = ~~~l then l.toNat else h.toNat * 256 + l.toNat := by
  simp only [necAddress, toNat_eq_comp8_iff]
  rw [Nat.or_comm, Laws.or_shiftLeft_eq_add (k := 8) _ l.isLt, Nat.add_comm]
  rfl

theorem necFields_eq (b : List Bool) :
    necFields b = necAnswer (bitField b 0 8) (bitField b 8 16) (bitField b 16 24) (bitField b 24 32) := by
  simp only [necFields, necAnswer, ← bitField_toNat b (show 8 - 0 ≤ 8 by decide),
    ← bitField_toNat b (show 16 - 8 ≤ 8 by decide), ← bitField_toNat b (show 24 - 16 ≤ 8 by decide),
    ← bitField_toNat b (show 32 - 24 ≤ 8 by decide), ne_eq, toNat_eq_comp8_iff, necAddress_bytes, ite_not,
    BitVec.ofNat_toNat, BitVec.setWidth_eq]

theorem necAnswer_of_mismatch (l h : Byte) {c i : Byte} (hi : i ≠ ~~~c) : necAnswer l h c i = .raise .checksumMismatch :=
  if_neg hi

theorem necAnswer_legacy (l c : Byte) :
    necAnswer l (~~~l) c (~~~c) = .ok (.necCmd (BitVec.ofNat 16 l.toNat) c) := by
  rw [necAnswer, if_pos rfl, if_pos rfl]

theorem necAnswer_wide {l h : Byte} (hh : h ≠ ~~~l) (c : Byte) :
    necAnswer l h c (~~~c) = .ok (.necCmd (BitVec.ofNat 16 (h.toNat * 256 + l.toNat)) c) := by
  rw [necAnswer, if_pos rfl, if_neg hh]

/-! ## The checks -/

/-- The windows of the repeat signal (R131). -/
def RepeatWindows (P : List Pulse) : Prop :=
  2100 ≤ dur P 1 ∧ dur P 1 ≤ 2300 ∧ 450 ≤ dur P 2 ∧ dur P 2 ≤ 700

theorem isRepeat_iff_repeatWindows (P : List Pulse) : isRepeat (P.getD 1 0) (P.getD 2 0) = true ↔ RepeatWindows P :=
  Laws.isRepeat_iff _ _

theorem decNecAnswer_of_count {P : List Pulse} (h : P.length ∉ [3, 67]) : decNecAnswer P = .raise .invalidPulseCount :=
  if_pos h

theorem decNecAnswer_of_agcMark {P : List Pulse} (h : P.length ∈ [3, 67]) (hmark : dur P 0 < 8800 ∨ 9300 < dur P 0) :
    decNecAnswer P = .raise .invalidAgcMark := by
  rw [decNecAnswer, if_neg (not_not_intro h), if_pos ((Laws.inWindow_false_iff _ _ _).mpr hmark)]

section
variable {P : List Pulse} (hcount : P.length ∈ [3, 67]) (hlo : 8800 ≤ dur P 0) (hhi : dur P 0 ≤ 9300)
include hcount hlo hhi

/-- What is left to decide when the count and the AGC mark are good. -/
theorem decNecAnswer_after_agcMark :
    decNecAnswer P = if isRepeat (P.getD 1 0) (P.getD 2 0) then .ok .necRpt
      else if inWindow (P.getD 1 0) 4400 4600 = false then .raise .invalidAgcSpace
      else if P.length = 3 then .raise .checksumMismatch
      else necFields (pairBits P 2 32) := by
  have hmark : inWindow (P.getD 0 0) 8800 9300 = true := (Laws.inWindow_true_iff _ _ _).mpr ⟨hlo, hhi⟩
  rw [decNecAnswer, if_neg (not_not_intro hcount), hmark, if_neg (by decide)]

theorem decNecAnswer_of_repeat (h : RepeatWindows P) : decNecAnswer P = .ok .necRpt := by
  rw [decNecAnswer_after_agcMark hcount hlo hhi, if_pos ((isRepeat_iff_repeatWindows P).mpr h)]

theorem decNecAnswer_of_agcSpace (h : ¬ RepeatWindows P) (hspace : dur P 1 < 4400 ∨ 4600 < dur P 1) :
    decNecAnswer P = .raise .invalidAgcSpace := by
  rw [decNecAnswer_after_agcMark hcount hlo hhi, if_neg (mt (isRepeat_iff_repeatWindows P).mp h),
    if_pos ((Laws.inWindow_false_iff _ _ _).mpr hspace)]

/-- No AGC space is in the window of a repeat signal's space. -/
theorem decNecAnswer_of_data (hslo : 4400 ≤ dur P 1) (hshi : dur P 1 ≤ 4600) :
    decNecAnswer P = if P.length = 3 then .raise .checksumMismatch
      else necAnswer (bitField (pairBits P 2 32) 0 8) (bitField (pairBits P 2 32) 8 16)
        (bitField (pairBits P 2 32) 16 24) (bitField (pairBits P 2 32) 24 32) := by
  have hspace : inWindow (P.getD 1 0) 4400 4600 = true := (Laws.inWindow_true_iff _ _ _).mpr ⟨hslo, hshi⟩
  have hrepeat : ¬ RepeatWindows P := by
    rintro ⟨-, h, -⟩
    omega
  rw [decNecAnswer_after_agcMark hcount hlo hhi, if_neg (mt (isRepeat_iff_repeatWindows P).mp hrepeat), hspace,
    if_neg (by decide), necFields_eq]

end

/-- Settles O52: the first check that fails decides, and three pulses carry no data. -/
theorem decNecErrorsInOrder : Obligations.DecNecErrorsInOrder := by
  intro s
  refine ⟨fun h => exec_of_answer_raise (decNecAnswer_of_count h),
    fun h hmark => exec_of_answer_raise (decNecAnswer_of_agcMark h hmark),
    fun h hlo hhi hrepeat hspace => exec_of_answer_raise (decNecAnswer_of_agcSpace h hlo hhi hrepeat hspace),
    fun h hlo hhi hslo hshi => exec_of_answer_raise (i := .decNec) ?_⟩
  have hcount : s.req.P.length ∈ [3, 67] := by simp [h]
  exact (decNecAnswer_of_data hcount hlo hhi hslo hshi).trans (if_pos h)

/-- An answer from the data is no repeat signal and no complaint about the AGC space. -/
theorem decNecAnswer_of_data_ne {P : List Pulse} (hcount : P.length ∈ [3, 67]) (hlo : 8800 ≤ dur P 0)
    (hhi : dur P 0 ≤ 9300) (hslo : 4400 ≤ dur P 1) (hshi : dur P 1 ≤ 4600) :
    decNecAnswer P ≠ .ok .necRpt ∧ decNecAnswer P ≠ .raise .invalidAgcSpace := by
  rw [decNecAnswer_of_data hcount hlo hhi hslo hshi, necAnswer]
  split_ifs <;> simp

/-- Settles O53: the windows of the repeat signal decide first, then the window of the AGC space, and what is left is neither
answer. -/
theorem repeatDetectorIsTheTwoWindows : Obligations.RepeatDetectorIsTheTwoWindows := by
  intro s hlength hlo hhi
  have hcount : s.req.P.length ∈ [3, 67] := by simpa using hlength
  rw [exec_eq_ok_iff, exec_eq_error_iff]
  change (decNecAnswer s.req.P = _ ↔ RepeatWindows s.req.P) ∧ (decNecAnswer s.req.P = _ ↔ ¬ RepeatWindows s.req.P ∧ _)
  by_cases hrepeat : RepeatWindows s.req.P
  · simp [decNecAnswer_of_repeat hcount hlo hhi hrepeat, hrepeat]
  by_cases hspace : dur s.req.P 1 < 4400 ∨ 4600 < dur s.req.P 1
  · simp [decNecAnswer_of_agcSpace hcount hlo hhi hrepeat hspace, hrepeat, hspace]
  · obtain ⟨hnorpt, hnospace⟩ := decNecAnswer_of_data_ne hcount hlo hhi (by omega) (by omega)
    simp [hnorpt, hnospace, hrepeat, hspace]

/-- Settles O54: the four bytes are bit fields of the pairs, whose bits are the ratio tests. -/
theorem decNecUnpacksTheFrame : Obligations.DecNecUnpacksTheFrame := by
  intro s hlength hlo hhi hslo hshi
  have hcount : s.req.P.length ∈ [3, 67] := by simp [hlength]
  have hanswer := (decNecAnswer_of_data hcount hlo hhi hslo hshi).trans (if_neg (by omega))
  refine ⟨bitField (pairBits s.req.P 2 32) 0 8, bitField (pairBits s.req.P 2 32) 8 16,
    bitField (pairBits s.req.P 2 32) 16 24, bitField (pairBits s.req.P 2 32) 24 32, fun j hj => ⟨?_, ?_, ?_, ?_⟩,
    fun hi => ?_, fun hi hh => ?_, fun hi hh => ?_⟩
  · rw [bitField_pairBits_getLsbD s.req.P 2 hj (by omega) (by decide), Nat.zero_add]
  · exact bitField_pairBits_getLsbD s.req.P 2 hj (by omega) (by decide)
  · exact bitField_pairBits_getLsbD s.req.P 2 hj (by omega) (by decide)
  · exact bitField_pairBits_getLsbD s.req.P 2 hj (by omega) (by decide)
  · exact exec_of_answer_raise (i := .decNec) (hanswer.trans (necAnswer_of_mismatch _ _ hi))
  · rw [hi, hh, necAnswer_legacy] at hanswer
    exact exec_of_answer_ok (i := .decNec) hanswer
  · rw [hi, necAnswer_wide hh] at hanswer
    exact exec_of_answer_ok (i := .decNec) hanswer

/-! ## What is not read -/

theorem getD_set_ne {P : List Pulse} {i j : Nat} (v : Pulse) (h : i ≠ j) : (P.set i v).getD j 0 = P.getD j 0 := by
  rw [List.getD_eq_getElem?_getD, List.getElem?_set_ne h, List.getD_eq_getElem?_getD]

/-- The 32 pairs end before element 66. -/
theorem decNecAnswer_set_trail (P : List Pulse) (v : Pulse) : decNecAnswer (P.set 66 v) = decNecAnswer P := by
  have hbits : pairBits (P.set 66 v) 2 32 = pairBits P 2 32 :=
    pairBits_congr fun k hk => by rw [getD_set_ne v (by omega), getD_set_ne v (by omega)]
  simp only [decNecAnswer, List.length_set, hbits, getD_set_ne v (show 66 ≠ 0 by decide),
    getD_set_ne v (show 66 ≠ 1 by decide), getD_set_ne v (show 66 ≠ 2 by decide)]

/-- Settles O55: the answer is the same, so the response is. -/
theorem decNecNeverReadsTheTrailingMark : Obligations.DecNecNeverReadsTheTrailingMark := fun s v _ =>
  exec_same_response (i := .decNec) (s := s) (t := { s with req := { s.req with P := s.req.P.set 66 v } })
    (decNecAnswer_set_trail s.req.P v).symm

/-- Settles O57: the decoders' lengths differ (R71). -/
theorem noSequenceIsAcceptedByBothDecoders : Obligations.NoSequenceIsAcceptedByBothDecoders :=
  fun _ _ _ _ _ w hP ha hb ⟨hv, hw⟩ => decNec_rejects_of_decSirc_accepts hP ha hb hv w hw

/-- Settles O51: the constant's mark, space and mark are in the repeat signal's windows, and three pulses are no SIRC frame. -/
theorem necRepeatDecodesAsTheRepeatSignal : Obligations.NecRepeatDecodesAsTheRepeatSignal := by
  intro s t d Q h hQ hd
  obtain rfl : Const.necRepeat = Q := by
    cases answer_of_rsp_ok h hQ
    rfl
  have hwindows : RepeatWindows Const.necRepeat := by
    unfold RepeatWindows
    decide
  have hnec := decNecAnswer_of_repeat (by decide) (by decide) (by decide) hwindows
  have hsirc := decSircAnswer_of_count (P := Const.necRepeat) (by decide)
  rw [← hd] at hnec hsirc
  exact ⟨exec_of_answer_ok (i := .decNec) hnec, exec_of_answer_raise (i := .decSirc) hsirc⟩

/-! ## Reading back -/

theorem necFramePulses_getD_mark {k : Nat} (W : Nat) (hk : k < 32) : (necFramePulses W).getD (2 + 2 * k) 0 = 560 := by
  rw [List.getD_eq_getElem?_getD, necFramePulses_mark W hk]
  rfl

theorem necFramePulses_getD_space {k : Nat} (W : Nat) (hk : k < 32) :
    (necFramePulses W).getD (2 + 2 * k + 1) 0 = if W.testBit k then 1690 else 560 := by
  have hindex : 2 + 2 * k + 1 = 3 + 2 * k := by omega
  rw [hindex, List.getD_eq_getElem?_getD, necFramePulses_space W hk]
  rfl

/-- The pairs of a frame carry the bits of its word. -/
theorem pairBits_necFramePulses (W : Nat) : pairBits (necFramePulses W) 2 32 = bitsOf W 32 :=
  pairBits_eq_bitsOf fun k hk => by
    rw [necFramePulses_getD_mark W hk, necFramePulses_getD_space W hk, classifyPair_necSymbol]

theorem bitField_bitsOf_eq_field (v : Nat) {w lo : Nat} (h : lo + 8 ≤ w) :
    bitField (bitsOf v w) lo (lo + 8) = field v lo 8 := by
  rw [bitField_bitsOf v h, Nat.add_sub_cancel_left]
  exact BitVec.eq_of_toNat_eq (by rw [Laws.field_toNat, BitVec.toNat_ofNat, Nat.mod_mod])

/-- A frame's length and AGC pair with 32 pairs that carry the bits of a word are read as the bytes of that word. -/
theorem decNecAnswer_of_word {P : List Pulse} {W : Nat} (hlength : P.length = 67) (hmark : dur P 0 = 9000)
    (hspace : dur P 1 = 4500) (hbits : pairBits P 2 32 = bitsOf W 32) :
    decNecAnswer P = necAnswer (field W 0 8) (field W 8 8) (field W 16 8) (field W 24 8) := by
  have hcount : P.length ∈ [3, 67] := by simp [hlength]
  rw [decNecAnswer_of_data hcount (by omega) (by omega) (by omega) (by omega), if_neg (by omega), hbits,
    bitField_bitsOf_eq_field W (lo := 0) (by decide), bitField_bitsOf_eq_field W (lo := 8) (by decide),
    bitField_bitsOf_eq_field W (lo := 16) (by decide), bitField_bitsOf_eq_field W (lo := 24) (by decide)]

theorem decNecAnswer_frame (l h c i : Byte) : decNecAnswer (necFramePulses (nec32Word l h c i)) = necAnswer l h c i := by
  obtain ⟨hl, hh, hc, hi⟩ := fields_of_nec32Word l h c i
  rw [decNecAnswer_of_word (necFramePulses_length _) rfl rfl (pairBits_necFramePulses _), hl, hh, hc, hi]

theorem exec_decNec_of_frame {l h c i : Byte} {v : Success} (hv : necAnswer l h c i = .ok v) {d : State}
    (hd : d.req.P = necFramePulses (nec32Word l h c i)) :
    exec .decNec d = .next { d with rsp := .ok v, pending := false } :=
  exec_of_answer_ok (i := .decNec) (by rw [answer, hd, decNecAnswer_frame, hv])

/-- The address bytes ENC_NEC sends are read as the address: the pair is complementary only in legacy mode. -/
theorem necAnswer_address {address : Nat} (ha : address < 2 ^ 16)
    (hamb : 2 ^ 8 ≤ address → address % 256 ≠ 255 - address / 256) (c : Byte) :
    necAnswer (BitVec.ofNat 8 (necAddressLow address)) (BitVec.ofNat 8 (necAddressHigh address)) c (~~~c)
      = .ok (.necCmd (BitVec.ofNat 16 address) c) := by
  rw [ofNat_necAddressLow, ofNat_necAddressHigh]
  obtain hlegacy | hwide := Nat.lt_or_ge address (2 ^ 8)
  · rw [if_pos hlegacy, necAnswer_legacy, BitVec.toNat_ofNat, Nat.mod_eq_of_lt hlegacy]
  · have hhigh : (BitVec.ofNat 8 (address >>> 8)).toNat = address / 256 := by
      rw [BitVec.toNat_ofNat, Nat.shiftRight_eq_div_pow]
      omega
    have hlow : (BitVec.ofNat 8 address).toNat = address % 256 := BitVec.toNat_ofNat _ _
    have hne : BitVec.ofNat 8 (address >>> 8) ≠ ~~~BitVec.ofNat 8 address := by
      have := hamb hwide
      rw [Ne, ← BitVec.toNat_inj, BitVec.toNat_not, hhigh, hlow]
      omega
    have hsum : address / 256 * 256 + address % 256 = address := Nat.div_add_mod' address 256
    rw [if_neg (Nat.not_lt.mpr hwide), necAnswer_wide hne, hhigh, hlow, hsum]

/-- Settles O48: the request is sent as the frame of its four bytes, whose command bytes are complementary and whose address bytes
are read as the address. -/
theorem necRoundTrip : Obligations.NecRoundTrip := by
  intro s hc ha hamb
  refine ⟨_, exec_encNec_of_accepts (necCheck_accepts hc ha hamb), fun d hd => ?_⟩
  rw [necPulses_eq_frame] at hd
  exact exec_decNec_of_frame (necAnswer_address ha hamb _) hd

/-- Settles O56: with high byte 0 the address is the low byte alone, whether or not the two are complementary. -/
theorem twoFramesDecodeToOneLowAddress : Obligations.TwoFramesDecodeToOneLowAddress := by
  intro l c s t u d e Q Q' ht hQ hu hQ' hd he
  obtain rfl : necFramePulses (nec32Word l 0 c (~~~c)) = Q := by
    cases answer_of_rsp_ok ht hQ
    rfl
  obtain rfl : necFramePulses (nec32Word l (~~~l) c (~~~c)) = Q' := by
    cases answer_of_rsp_ok hu hQ'
    rfl
  have hzero : necAnswer l 0 c (~~~c) = .ok (.necCmd (BitVec.ofNat 16 l.toNat) c) := by
    simp [necAnswer]
  exact ⟨exec_decNec_of_frame hzero hd, exec_decNec_of_frame (necAnswer_legacy l c) he⟩

/-! ## One flipped bit -/

/-- Changing the space of pair `k` to the other symbol's changes bit `k` of the word that is read. -/
theorem pairBits_flip {W k : Nat} {v : Pulse} (hk : k < 32) (hv : v = 560 ∨ v = 1690)
    (hne : (necFramePulses W)[3 + 2 * k]? ≠ some v) :
    pairBits ((necFramePulses W).set (3 + 2 * k) v) 2 32 = bitsOf (W ^^^ 2 ^ k) 32 := by
  have hspace : v = if !W.testBit k then 1690 else 560 := by
    rw [necFramePulses_space W hk] at hne
    cases hbit : W.testBit k <;> rcases hv with rfl | rfl <;> simp [hbit] at hne ⊢
  refine pairBits_eq_bitsOf fun m hm => ?_
  rw [getD_set_ne v (by omega), necFramePulses_getD_mark W hm, Nat.testBit_xor, Nat.testBit_two_pow]
  by_cases hmk : k = m
  · subst hmk
    have hread : ((necFramePulses W).set (3 + 2 * k) v).getD (2 + 2 * k + 1) 0 = v := by
      have hindex : 2 + 2 * k + 1 = 3 + 2 * k := by omega
      rw [hindex, List.getD_eq_getElem?_getD, List.getElem?_set_self (by rw [necFramePulses_length]; omega)]
      rfl
    rw [hread, hspace, classifyPair_necSymbol, decide_eq_true rfl, Bool.xor_true]
  · rw [getD_set_ne v (by omega), necFramePulses_getD_space W hm, classifyPair_necSymbol, decide_eq_false hmk,
      Bool.xor_false]

theorem field_getLsbD (v lo : Nat) {j : Nat} (hj : j < 8) : (field v lo 8).getLsbD j = v.testBit (lo + j) := by
  rw [field, getLsbD_byte_ofNat _ hj, Nat.testBit_shiftRight]

/-- A flipped bit of the command or of its complement leaves the two alike in that place. -/
theorem flipped_not_complement (l h c : Byte) {k : Nat} (hlo : 16 ≤ k) (hhi : k < 32) :
    field (nec32Word l h c (~~~c) ^^^ 2 ^ k) 24 8 ≠ ~~~field (nec32Word l h c (~~~c) ^^^ 2 ^ k) 16 8 := by
  intro heq
  obtain ⟨j, hj, hjk⟩ : ∃ j < 8, k = 16 + j ∨ k = 24 + j := ⟨k % 8, by omega, by omega⟩
  obtain ⟨-, -, hcommand, hinverted⟩ := nec32Word_testBit l h c (~~~c) hj
  have hbit := congrArg (fun b : Byte => b.getLsbD j) heq
  simp only [getLsbD_byte_not _ hj, field_getLsbD _ _ hj, Nat.testBit_xor, Nat.testBit_two_pow, hcommand, hinverted] at hbit
  obtain rfl | rfl := hjk <;> simp at hbit

/-- Settles O49: the changed frame reads as the word with that one bit flipped, whose command bytes are not complementary. -/
theorem necChecksumCatchesOneBit : Obligations.NecChecksumCatchesOneBit := by
  intro s t Q h hQ k v hlo hhi hv hne d hd
  obtain rfl := encodeNec_pulses (answer_of_rsp_ok h hQ)
  rw [necPulses_eq_frame] at hne hd
  refine exec_of_answer_raise (i := .decNec) ?_
  rw [answer, hd, decNecAnswer_of_word ?length ?mark ?space (pairBits_flip hhi hv hne)]
  case length => rw [List.length_set, necFramePulses_length]
  case mark => exact congrArg BitVec.toNat (getD_set_ne v (by omega))
  case space => exact congrArg BitVec.toNat (getD_set_ne v (by omega))
  exact necAnswer_of_mismatch _ _ (flipped_not_complement _ _ _ hlo hhi)

end Sys2Proof.Proofs
end

section
/-! Who raises which error (60_exceptions.md section 1, R140). -/

namespace Sys2Proof.Proofs

open Sys2Proof Sys2Proof.Machine

theorem encodeSirc_raise {command device ext : Nat} {extPresent force8 : Bool} {k : ErrorKind}
    (h : encodeSirc command device extPresent ext force8 = .raise k) :
    k ∈ [ErrorKind.invalidCommand, .invalidDevice, .invalidDeviceId, .invalidExtendedDevice, .invalidAddress] := by
  rw [encodeSirc, Laws.sircCheck_eq] at h
  split_ifs at h <;> cases h <;> decide

theorem encodeNec_raise {address command : Nat} {k : ErrorKind} (h : encodeNec address command = .raise k) :
    k ∈ [ErrorKind.invalidCommand, .invalidDevice, .invalidDeviceId, .invalidExtendedDevice, .invalidAddress] := by
  rw [encodeNec, Laws.necCheck_eq] at h
  split_ifs at h <;> cases h <;> decide

theorem decSircAnswer_raise {P : List Pulse} {k : ErrorKind} (h : decSircAnswer P = .raise k) :
    k ∈ [ErrorKind.invalidPulseCount, .invalidHeader, .invalidAgcMark, .invalidAgcSpace, .checksumMismatch]
      ∧ k ≠ .invalidAgcMark := by
  rw [decSircAnswer] at h
  split_ifs at h <;> cases h <;> decide

theorem decNecAnswer_raise {P : List Pulse} {k : ErrorKind} (h : decNecAnswer P = .raise k) :
    k ∈ [ErrorKind.invalidPulseCount, .invalidHeader, .invalidAgcMark, .invalidAgcSpace, .checksumMismatch]
      ∧ k ≠ .invalidHeader := by
  rw [decNecAnswer, necFields_eq, necAnswer] at h
  split_ifs at h <;> cases h <;> decide

/-- Settles O22: only the two encoders and the two decoders raise, and each its own kinds. -/
theorem errorTaxonomiesAreDisjoint : Obligations.ErrorTaxonomiesAreDisjoint := by
  intro i s t k hexec hk
  have h : answer s.req i = .raise k := answer_of_rsp_error hexec hk
  cases i with
  | encSirc => exact .inl ⟨.inl rfl, encodeSirc_raise h⟩
  | encNec => exact .inl ⟨.inr rfl, encodeNec_raise h⟩
  | decSirc =>
    obtain ⟨hkind, hagc⟩ := decSircAnswer_raise h
    exact .inr ⟨.inl rfl, hkind, fun _ => rfl, fun hk => absurd hk hagc⟩
  | decNec =>
    obtain ⟨hkind, hheader⟩ := decNecAnswer_raise h
    exact .inr ⟨.inr rfl, hkind, fun hk => absurd hk hheader, fun _ => rfl⟩
  | _ => cases h

end Sys2Proof.Proofs
end

section
/-! The invariant (00_scope.md section 3, 10_state.md section 3, 20_memory.md section 1). REQ is the caller's and stays; a response
is legal because every answer to a presentable request is: the longest frame has 67 pulses, a serialization has two for each bit of
a width that is at most MAX_BITS, and a decoder's fields are bit fields. -/

namespace Sys2Proof.Proofs

open Sys2Proof Sys2Proof.Machine Sys2Proof.Safety

/-- The response fits its record and is within range. -/
def LegalResponse (p : Config.Params) (r : Response) : Prop :=
  fits p r = true ∧ inRange r = true

/-- The answer makes a legal response: every error does. -/
def LegalAnswer (p : Config.Params) (r : Result) : Prop :=
  ∀ v, r = .ok v → LegalResponse p (.ok v)

theorem legalAnswer_ok {p : Config.Params} {v : Success} (hfits : fits p (.ok v) = true)
    (hrange : inRange (.ok v) = true) : LegalAnswer p (.ok v) := by
  rintro _ ⟨⟩
  exact ⟨hfits, hrange⟩

theorem legalAnswer_raise (p : Config.Params) (k : ErrorKind) : LegalAnswer p (.raise k) :=
  fun _ h => Result.noConfusion h

theorem legalResponse_finish {p : Config.Params} {r : Result} (h : LegalAnswer p r) (s : State) :
    LegalResponse p (s.finish r).rsp := by
  cases r with
  | ok v => exact h v rfl
  | raise k => exact ⟨rfl, rfl⟩

theorem legalAnswer_ite {p : Config.Params} {c : Prop} [Decidable c] {a b : Result} (ha : LegalAnswer p a)
    (hb : LegalAnswer p b) : LegalAnswer p (if c then a else b) := by
  split
  · exact ha
  · exact hb

theorem legal_params_bounds {p : Config.Params} (h : p.legal = true) :
    67 ≤ p.maxPulses ∧ 2 * p.maxBits ≤ p.maxPulses := by
  simp only [Config.Params.legal, Bool.and_eq_true, decide_eq_true_iff] at h
  omega

theorem presentable_bounds {p : Config.Params} {r : Request} (h : presentable p r = true) :
    r.width ≤ p.maxBits ∧ r.bits.length ≤ p.maxBits := by
  simp only [presentable, Bool.and_eq_true, decide_eq_true_iff] at h
  omega

/-! ## Answers that carry pulses -/

theorem legalAnswer_pulses {p : Config.Params} {Q : List Pulse} (hlength : Q.length ≤ p.maxPulses)
    (hdurations : DurationsAtMost 9200 Q) : LegalAnswer p (.ok (.pulses Q)) :=
  legalAnswer_ok (decide_eq_true hlength) (List.all_eq_true.mpr fun v hv => decide_eq_true (hdurations v hv))

theorem sircFrameBits_le (r : Request) : sircFrameBits r ≤ 23 := by
  rw [sircFrameBits, Laws.sircDeviceWidth_eq, sircExtWidth]
  split_ifs <;> decide

theorem DurationsAtMost.mono {m n : Nat} {Q : List Pulse} (h : DurationsAtMost m Q) (hmn : m ≤ n) : DurationsAtMost n Q :=
  fun v hv => (h v hv).trans hmn

section
variable {p : Config.Params} (hp : p.legal = true)
include hp

theorem legalAnswer_v2pSirc (value : Nat) {width : Nat} (hwidth : width ≤ p.maxBits) :
    LegalAnswer p (.ok (.pulses (v2pSirc value width))) := by
  obtain ⟨-, hbits⟩ := legal_params_bounds hp
  exact legalAnswer_pulses (by rw [Laws.v2pSirc_length]; omega) ((v2pSirc_durations _ _).mono (by decide))

theorem legalAnswer_v2pNec (value : Nat) {width : Nat} (hwidth : width ≤ p.maxBits) :
    LegalAnswer p (.ok (.pulses (v2pNec value width))) := by
  obtain ⟨-, hbits⟩ := legal_params_bounds hp
  exact legalAnswer_pulses (by rw [Laws.v2pNec_length]; omega) ((v2pNec_durations _ _).mono (by decide))

theorem legalAnswer_sircFrame {nb : Nat} (hnb : nb ≤ 23) (W : Nat) :
    LegalAnswer p (.ok (.pulses (sircFramePulses nb W))) := by
  obtain ⟨hpulses, -⟩ := legal_params_bounds hp
  exact legalAnswer_pulses (by rw [sircFramePulses_length]; omega) ((sircFramePulses_durations _ _).mono (by decide))

theorem legalAnswer_necFrame (W : Nat) : LegalAnswer p (.ok (.pulses (necFramePulses W))) := by
  obtain ⟨hpulses, -⟩ := legal_params_bounds hp
  exact legalAnswer_pulses (by rw [necFramePulses_length]; omega) ((necFramePulses_durations _).mono (by decide))

theorem legalAnswer_sircSymbol (bit : Bool) : LegalAnswer p (.ok (.pulses (sircSymbol bit))) := by
  obtain ⟨hpulses, -⟩ := legal_params_bounds hp
  refine legalAnswer_pulses ?_ ((sircSymbol_durations bit).mono (by decide))
  rw [Laws.sircSymbol_eq, List.length_cons, List.length_singleton]
  omega

theorem legalAnswer_necSymbol (bit : Bool) : LegalAnswer p (.ok (.pulses (necSymbol bit))) := by
  obtain ⟨hpulses, -⟩ := legal_params_bounds hp
  refine legalAnswer_pulses ?_ ((necSymbol_durations bit).mono (by decide))
  rw [Laws.necSymbol_eq, List.length_cons, List.length_singleton]
  omega

theorem legalAnswer_necRepeat : LegalAnswer p (.ok (.pulses Const.necRepeat)) := by
  obtain ⟨hpulses, -⟩ := legal_params_bounds hp
  exact legalAnswer_pulses ((by decide : Const.necRepeat.length ≤ 67).trans hpulses) necRepeat_durations

theorem legalAnswer_encSirc (r : Request) : LegalAnswer p (answer r .encSirc) := by
  cases hcheck : sircCheck r.command r.device r.extPresent r.ext with
  | some k =>
    have hraise : answer r .encSirc = .raise k := encodeSirc_of_check hcheck r.force8
    rw [hraise]
    exact legalAnswer_raise p k
  | none =>
    rw [((sircCheck_eq_none_iff r).mp hcheck).answer_eq]
    exact legalAnswer_sircFrame hp (sircFrameBits_le r) _

theorem legalAnswer_encNec (r : Request) : LegalAnswer p (answer r .encNec) := by
  rw [answer, encodeNec]
  cases necCheck r.address r.command with
  | some k => exact legalAnswer_raise p k
  | none =>
    rw [necPulses_eq_frame]
    exact legalAnswer_necFrame hp _

end

/-! ## Answers that carry fields -/

theorem legalAnswer_b2v {p : Config.Params} {bits : List Bool} (h : bits.length ≤ p.maxBits) :
    LegalAnswer p (.ok (.value (valueOf bits))) :=
  legalAnswer_ok (decide_eq_true ((Laws.valueOf_lt bits).trans_le (Nat.pow_le_pow_right (by decide) h))) rfl

/-- R114: the command is a field of seven bits, and a device beside an extended device one of five. -/
theorem legalAnswer_sircFields (p : Config.Params) (n : Nat) (b : List Bool) : LegalAnswer p (.ok (sircFields n b)) := by
  have hcommand : (bitField b 0 7).toNat < 128 := bitField_lt b (by decide)
  have hdevice : (bitField b 7 12).toNat < 32 := bitField_lt b (by decide)
  unfold sircFields
  dsimp only
  split_ifs
  · exact legalAnswer_ok rfl (decide_eq_true hcommand)
  · exact legalAnswer_ok rfl (decide_eq_true hcommand)
  · exact legalAnswer_ok rfl (Bool.and_eq_true_iff.mpr ⟨decide_eq_true hcommand, decide_eq_true hdevice⟩)

theorem legalAnswer_decSirc (p : Config.Params) (P : List Pulse) : LegalAnswer p (decSircAnswer P) :=
  legalAnswer_ite (legalAnswer_raise p _)
    (legalAnswer_ite (legalAnswer_raise p _) (legalAnswer_sircFields p _ _))

theorem legalAnswer_necAnswer (p : Config.Params) (l h c i : Byte) : LegalAnswer p (necAnswer l h c i) :=
  legalAnswer_ite (legalAnswer_ok rfl rfl) (legalAnswer_raise p _)

theorem legalAnswer_decNec (p : Config.Params) (P : List Pulse) : LegalAnswer p (decNecAnswer P) := by
  rw [decNecAnswer, necFields_eq]
  exact legalAnswer_ite (legalAnswer_raise p _) (legalAnswer_ite (legalAnswer_raise p _)
    (legalAnswer_ite (legalAnswer_ok rfl rfl) (legalAnswer_ite (legalAnswer_raise p _)
      (legalAnswer_ite (legalAnswer_raise p _) (legalAnswer_necAnswer p _ _ _ _)))))

/-! ## Every instruction and every step -/

theorem answer_legal {p : Config.Params} (hp : p.legal = true) {r : Request} (hr : presentable p r = true) (i : Instr) :
    LegalAnswer p (answer r i) := by
  obtain ⟨hwidth, hbits⟩ := presentable_bounds hr
  cases i with
  | b2v => exact legalAnswer_b2v hbits
  | v2pSirc => exact legalAnswer_v2pSirc hp _ hwidth
  | v2pNec => exact legalAnswer_v2pNec hp _ hwidth
  | classify => exact legalAnswer_ok rfl rfl
  | encSirc => exact legalAnswer_encSirc hp r
  | decSirc => exact legalAnswer_decSirc p r.P
  | encNec => exact legalAnswer_encNec hp r
  | decNec => exact legalAnswer_decNec p r.P
  | necRepeat => exact legalAnswer_necRepeat hp
  | sirc12 | sirc15 | sirc20 | sirc23 => exact legalAnswer_sircFrame hp (by decide) _
  | nec32 => exact legalAnswer_necFrame hp _
  | sircBit0 | sircBit1 => exact legalAnswer_sircSymbol hp _
  | necBit0 | necBit1 => exact legalAnswer_necSymbol hp _

theorem exec_keeps_legalState {p : Config.Params} (hp : p.legal = true) {i : Instr} {s t : State} (hs : LegalState p s)
    (h : exec i s = .next t) : LegalState p t := by
  obtain ⟨hreq, -⟩ := hs
  rw [exec_next_iff.mp h]
  exact ⟨(finish_req s _).symm ▸ hreq, legalResponse_finish (answer_legal hp hreq i) s⟩

/-- Settles O19: a step waits or runs an instruction, and every instruction keeps REQ and leaves a legal response. -/
theorem everyStepKeepsTheInvariant : Obligations.EveryStepKeepsTheInvariant := by
  intro p hp s t hs
  refine ⟨fun hstep => ?_, fun i h => exec_keeps_legalState hp hs h⟩
  obtain ⟨-, rfl⟩ | ⟨-, i, h⟩ := step_next_cases hstep
  · exact hs
  · exact exec_keeps_legalState hp hs h

end Sys2Proof.Proofs
end
